-- ==== Sys2Proof/Word.lean ====
section
/-!
DEFINITION. The plain words of the TRC3 core: bytes, instruction words, byte addresses, instruction
indices and register names.
-/

namespace Sys2Proof

/-- A memory cell or a register's value (R21, R50). -/
abbrev Byte := BitVec 8

/-- An instruction word (R70). -/
abbrev Word := BitVec 16

/-- A byte address of the 2048-byte memory: 11 bits, so every value exists (R50). -/
abbrev Addr := BitVec 11

/-- A program counter value: an instruction index from 0 to 1023, or 1024 at the end of the address
space (R25). Eleven bits; no run reaches a value above 1024 (`State.Inv`). -/
abbrev Pc := BitVec 11

/-- A control-transfer target or a return address: an instruction index from 0 to 1023 (R33, R81). -/
abbrev Index := BitVec 10

/-- A page number (R32). -/
abbrev Page := BitVec 3

/-- A GPIO port number (R67). -/
abbrev Port := BitVec 3

/-- The eight general registers (R21). -/
inductive Reg
  | r0 | r1 | r2 | r3 | r4 | r5 | r6 | r7
  deriving DecidableEq, Repr

end Sys2Proof
end

