-- ==== Sys2Proof/Config.lean ====
section
/-!
DEFINITION. The parameters the spec leaves to an implementation (00_scope R7), with the spec's defaults.
The core's parameters are plain data that the machine's state carries (log 1); the assembler takes its own
as an argument. The host's answers to GPI are the model's one free value (R279, log 2).
-/

namespace Sys2Proof

/-- RESERVED_BITS_POLICY (R84): what the core does with a 1 in a reserved bit of a legal opcode's word. -/
inductive ReservedBitsPolicy
  /-- Raise the fault ReservedBits at decode. -/
  | fault
  /-- Execute the word as if those bits were 0. -/
  | ignore
  deriving DecidableEq, Repr

/-- OFFSET_OVERFLOW (R52): what REA and STO do when `x[a] + imm3` is above 255. -/
inductive OffsetOverflow
  /-- Raise the fault DataAddressOutOfRange. -/
  | fault
  /-- Go on into the next page, faulting only above byte 2047. -/
  | spill
  /-- Stay in the page: take the offset modulo 256. -/
  | wrap
  deriving DecidableEq, Repr

/-- PAGE_OVERFLOW (R182): what PAS does when `imm3 | x[reg]` is above 7. -/
inductive PageOverflow
  /-- Raise the fault PageOutOfRange. -/
  | fault
  /-- Keep the low 3 bits. -/
  | mask
  deriving DecidableEq, Repr

/-- The core's parameters; each default is the spec's (R7). -/
structure Config where
  reservedBits : ReservedBitsPolicy := .fault
  offsetOverflow : OffsetOverflow := .fault
  pageOverflow : PageOverflow := .fault
  adiWritesFlags : Bool := false
  deriving DecidableEq, Repr

/-- Every core parameter at the spec's default (R7). -/
def Config.standard : Config := {}

/-- The assembler's parameters (R229). ASM_CHAR_LITERALS has no field: the spec leaves it OPEN, and off is
its only defined setting. -/
structure AsmConfig where
  /-- ASM_PORT_ALIASES: whether `p0` to `p7` are known names. -/
  portAliases : Bool := false
  deriving DecidableEq, Repr

/-- What the core exchanged with the host (R38). -/
inductive Machine.Event
  /-- GPI took `value` from input port `port`. -/
  | inEvent (port : Port) (value : Byte)
  /-- GPO gave `value` to output port `port`. -/
  | outEvent (port : Port) (value : Byte)
  /-- BEL rang the bell. -/
  | bellEvent
  deriving DecidableEq, Repr

/-- The input oracles of R279: oracle `n` answers a byte or none to the port and the trace so far. Nothing
constrains an answer, so what is proved of it holds for every oracle (log 2). -/
opaque Config.hostOracle : Nat → Port → List Machine.Event → Option Byte

end Sys2Proof
end

