-- ==== Sys2Proof/Machine/State.lean ====
section
/-!
DEFINITION. The state of the TRC3 core: the tuple of 10_state R20, and two fields of the model's own (the
core's parameters and the host's answers to GPI), which the spec makes arguments of a model.
-/

namespace Sys2Proof.Machine

/-- Why the core faulted (R270). Taking such a fault is a state change (`State.raiseFault`), as R271 says. -/
inductive FaultReason
  /-- A fetched word's opcode is 27 to 31 (R83). -/
  | illegalOpcode
  /-- A reserved bit of the word's format is 1, under RESERVED_BITS_POLICY = fault (R84). -/
  | reservedBits
  /-- The data address of REA or STO is out of range (R52). -/
  | dataAddressOutOfRange
  /-- PAS computed a value above 7, under PAGE_OVERFLOW = fault (R182). -/
  | pageOutOfRange
  deriving DecidableEq, Repr

/-- The run state (R35). -/
inductive RunState
  | running
  | halted
  | faulted (reason : FaultReason)
  deriving DecidableEq, Repr

/-- The host that answers GPI, as plain data (R279): it names an oracle that, given the port and the trace so
far, answers a byte or never answers. `HostInput.answer` is that oracle (log 2). -/
inductive HostInput
  /-- Any oracle at all, the free value `Config.hostOracle` at `n`: nothing is known of its answers. -/
  | oracle (n : Nat)
  /-- The simplest oracle of R279: one list of bytes, used up in order whatever the port; then no answer. -/
  | stream (bytes : List Byte)
  /-- A list of bytes used in order whatever the port, and again from its start without end. -/
  | repeating (bytes : List Byte)
  /-- An oracle given by its table: the answer for each listed port and trace, and the answer elsewhere. -/
  | table (answers : List ((Port × List Event) × Byte)) (otherwise : Option Byte)
  deriving DecidableEq, Repr

/-- The registers r1 to r7 (R21). Register 0 is hard-wired and has no storage; `Regs.get` and `Regs.set`
are the one place that says so. -/
structure Regs where
  r1 : Byte
  r2 : Byte
  r3 : Byte
  r4 : Byte
  r5 : Byte
  r6 : Byte
  r7 : Byte
  deriving DecidableEq, Repr

/-- Every register 0 (R40). -/
def Regs.zeroed : Regs := ⟨0#8, 0#8, 0#8, 0#8, 0#8, 0#8, 0#8⟩

/-- The 2048-byte memory (R50) as the list of its nonzero bytes by rising address; `Memory.wf` is that
form, and `Memory.unlisted` what the other addresses read as. -/
abbrev Memory := List Host.Cell

/-- The call stack: 16 entries of 10 bits, entry 0 on top (R33). -/
abbrev CallStack := Vector Index 16

/-- The state of the core (R20). -/
structure State where
  /-- Run state (R35). -/
  run : RunState
  /-- Program counter, in instructions (R25). -/
  pc : Pc
  /-- General registers (R21). -/
  regs : Regs
  /-- Carry flag C (R29). -/
  carry : Bool
  /-- Zero flag Z (R30). -/
  zero : Bool
  /-- Page register PG (R32). -/
  page : Page
  /-- Call stack S (R33). -/
  stack : CallStack
  /-- Memory M (R50). -/
  mem : Memory
  /-- Instruction register IR (R37). -/
  ir : Word
  /-- Event trace (R38), oldest first. -/
  trace : List Event
  /-- The MODEL's own field: the core's parameters (R7). No step changes it. -/
  cfg : Config
  /-- The MODEL's own field: the host's answers to GPI (R279). No step changes it. -/
  host : HostInput
  deriving DecidableEq, Repr

/-- Why `step` has no next state. A fault of the SPEC is not one of these: it is a next state whose `run`
is `faulted` (R271). -/
inductive Fault
  /-- Raised by `step` on a core that is Halted: R35 gives Halted no next cycle. Safe: the run has ended. -/
  | halted
  /-- Raised by `step` on a core that is Faulted: R271 says no cycle follows. Safe: the run has ended. -/
  | faulted (reason : FaultReason)
  /-- Raised by `step` on a Running core whose pc is 1024 or more: R26 gives it no cycle. Safe: no run from
  a state with `State.Inv` reaches such a state. -/
  | pcOutOfRange
  deriving DecidableEq, Repr

/-- Why an instruction has no meaning in the model. -/
inductive Refusal
  /-- Raised by an arm of `exec` whose instruction has no meaning yet. Safe: the model stops. No arm of this
  model raises it. -/
  | notModelled (mnemonic : String)
  deriving DecidableEq, Repr

/-- The state right after reset (R40, R300), with the empty image loaded (R301). The spec gives IR no reset
value (log 3). `cfg` is the spec's defaults (log 1); the host never answers (log 2). -/
def State.reset : State where
  run := .running
  pc := 0#11
  regs := .zeroed
  carry := false
  zero := false
  page := 0#3
  stack := Vector.replicate 16 0#10
  mem := []
  ir := 0#16
  trace := []
  cfg := .standard
  host := .stream []

end Sys2Proof.Machine
end

