-- ==== Sys2Proof/Machine/Flags.lean ====
section
/-!
DEFINITION. The ALU function of R100: result, carry and zero of the nine operations, computed on exact
integers in the spec's operation order and narrowed at the end; no quirk is simplified. No operation reads a
flag (R112).
-/

namespace Sys2Proof.Machine

/-- The nine ALU operations (R100). -/
inductive AluOp
  | add | sub | xor | xno | ior | nor | and | nan | rsh
  deriving DecidableEq, Repr

/-- What the ALU puts out: an 8-bit result and the two flags (R100). -/
structure AluOut where
  result : Byte
  carry : Bool
  zero : Bool
  deriving DecidableEq, Repr

/-- The exact sum of ADD, XNO and RSH. -/
def addSum (a b : Byte) : Nat := a.toNat + b.toNat

/-- The exact sum of SUB, `a + ((~b) & 0xFF) + 1`. -/
def subSum (a b : Byte) : Nat := a.toNat + (~~~b).toNat + 1

/-- Carry out of 8 bits: the exact value is above 255. -/
def carryOut (n : Nat) : Bool := decide (n > 255)

/-- The generic zero flag: the result is 0. -/
def zeroOf (r : Byte) : Bool := r == 0#8

/-- An ALU output whose flags come from the result alone: the carry is `r > 255` (IOR, NOR, AND). -/
def fromResult (r : Byte) : AluOut := ⟨r, carryOut r.toNat, zeroOf r⟩

/-- The ALU result (R100). -/
def aluResult (op : AluOp) (a b : Byte) : Byte :=
  match op with
  | .add => BitVec.ofNat 8 (addSum a b)
  | .sub => BitVec.ofNat 8 (subSum a b)
  | .xor => a ^^^ b
  | .xno => ~~~(a ^^^ b)
  | .ior => a ||| b
  | .nor => ~~~(a ||| b)
  | .and => a &&& b
  | .nan => ~~~a &&& ~~~b
  | .rsh => BitVec.ofNat 8 (addSum a b) >>> 1

/-- The ALU function (R100). XOR's carry compares magnitudes, XNO's is ADD's, NAN's is never set. -/
def alu (op : AluOp) (a b : Byte) : AluOut :=
  let r := aluResult op a b
  match op with
  | .add => ⟨r, carryOut (addSum a b), zeroOf r⟩
  | .sub => ⟨r, carryOut (subSum a b), zeroOf r⟩
  | .xor => ⟨r, decide (a.toNat > b.toNat), zeroOf r⟩
  | .xno => ⟨r, carryOut (addSum a b), zeroOf r⟩
  | .ior => fromResult r
  | .nor => fromResult r
  | .and => fromResult r
  | .nan => ⟨r, false, zeroOf r⟩
  | .rsh => ⟨r, carryOut (addSum a b), zeroOf r⟩

end Sys2Proof.Machine
end

