-- ==== Sys2Proof/Syntax.lean ====
section
/-!
DEFINITION. The instructions of the TRC3 core: one constructor for each row of spec/opcode_table.json, its
operands named as the table names its fields and given in the assembler's order (R91).
-/

namespace Sys2Proof

/-- The 27 instructions (R80). In the nine ALU instructions `a` and `b` are the sources and `c` the
destination (R73). In REA and STO `a` is the base register and `c` the data register (R180, R181). -/
inductive Instr
  | nop
  | hlt
  | add (a b c : Reg)
  | adi (reg : Reg) (imm8 : BitVec 8)
  | sub (a b c : Reg)
  | xor (a b c : Reg)
  | xno (a b c : Reg)
  | ior (a b c : Reg)
  | nor (a b c : Reg)
  | and (a b c : Reg)
  | nan (a b c : Reg)
  | rsh (a b c : Reg)
  | ldi (reg : Reg) (imm8 : BitVec 8)
  | jmp (imm10 : BitVec 10)
  | beq (imm10 : BitVec 10)
  | bne (imm10 : BitVec 10)
  | bgt (imm10 : BitVec 10)
  | blt (imm10 : BitVec 10)
  | cal (imm10 : BitVec 10)
  | ret
  | rea (a : Reg) (imm3 : BitVec 3) (c : Reg)
  | sto (a : Reg) (imm3 : BitVec 3) (c : Reg)
  | gpi (reg : Reg) (imm3 : BitVec 3)
  | gpo (reg : Reg) (imm3 : BitVec 3)
  | bel
  | pas (imm3 : BitVec 3) (reg : Reg)
  | pag (reg : Reg)
  deriving DecidableEq, Repr

end Sys2Proof
end

