-- ==== Sys2Proof/WellFormed.lean ====
section
/-!
DEFINITION. When an operand list fits an operand format: the count check of R235 and the range check of
R236, and the eight formats they speak of. An `Instr` carries operands of exactly the format's widths, so
every `Instr` passes (Sys2Proof/Laws/WellFormed.lean); the assembler's operands are unbounded integers, and
for them the checks refuse.
-/

namespace Sys2Proof

/-- The eight operand-format tags (R72 to R79). -/
inductive Format
  | none
  | alu
  | imm8ToReg
  | imm10
  | imm3ToReg
  | regToImm3
  | imm3OrReg
  | regOnly
  deriving DecidableEq, Repr

/-- The largest value of each operand of a format, in the assembler's operand order (R235, R236). -/
def Format.operandMax : Format → List Nat
  | .none => []
  | .alu => [7, 7, 7]
  | .imm8ToReg => [7, 255]
  | .imm10 => [1023]
  | .imm3ToReg => [7, 7]
  | .regToImm3 => [7, 7]
  | .imm3OrReg => [7, 7]
  | .regOnly => [7]

/-- R235: the operand count is the format's. -/
def operandCountOk (fmt : Format) (vals : List Int) : Bool :=
  vals.length == fmt.operandMax.length

/-- R236: every operand is a non-negative integer within its bound. -/
def operandRangesOk (fmt : Format) (vals : List Int) : Bool :=
  (vals.zip fmt.operandMax).all fun p => decide (0 ≤ p.1) && decide (p.1 ≤ (p.2 : Int))

/-- The operands fit the format: R235 and R236 together. -/
def operandsFit (fmt : Format) (vals : List Int) : Bool :=
  operandCountOk fmt vals && operandRangesOk fmt vals

/-- A register operand as a number: `r<n>` is `n` (R21). -/
def Reg.number : Reg → Nat
  | .r0 => 0 | .r1 => 1 | .r2 => 2 | .r3 => 3 | .r4 => 4 | .r5 => 5 | .r6 => 6 | .r7 => 7

/-- The operand format of an instruction (R80). -/
def Instr.format : Instr → Format
  | .nop | .hlt | .ret | .bel => .none
  | .add .. | .sub .. | .xor .. | .xno .. | .ior .. | .nor .. | .and .. | .nan .. | .rsh .. => .alu
  | .rea .. | .sto .. => .alu
  | .adi .. | .ldi .. => .imm8ToReg
  | .jmp _ | .beq _ | .bne _ | .bgt _ | .blt _ | .cal _ => .imm10
  | .gpi .. => .imm3ToReg
  | .gpo .. => .regToImm3
  | .pas .. => .imm3OrReg
  | .pag _ => .regOnly

/-- The operands of an instruction as numbers, in the assembler's order (R91). -/
def Instr.operands : Instr → List Nat
  | .nop | .hlt | .ret | .bel => []
  | .add a b c | .sub a b c | .xor a b c | .xno a b c | .ior a b c => [a.number, b.number, c.number]
  | .nor a b c | .and a b c | .nan a b c | .rsh a b c => [a.number, b.number, c.number]
  | .rea a imm3 c | .sto a imm3 c => [a.number, imm3.toNat, c.number]
  | .adi reg imm8 | .ldi reg imm8 => [reg.number, imm8.toNat]
  | .jmp t | .beq t | .bne t | .bgt t | .blt t | .cal t => [t.toNat]
  | .gpi reg imm3 | .gpo reg imm3 => [reg.number, imm3.toNat]
  | .pas imm3 reg => [imm3.toNat, reg.number]
  | .pag reg => [reg.number]

/-- An instruction is well formed when its operands fit its format (R235, R236). -/
def Instr.wellFormed (i : Instr) : Bool :=
  operandsFit i.format (i.operands.map Int.ofNat)

end Sys2Proof
end

