-- ==== Sys2Proof/Decode.lean ====
section
/-!
DEFINITION. Decoding a 16-bit word (30_encoding R71 to R86), total and rejecting by name; then the encoder
written from the same tables (R87), and the byte order of a word (R88).
-/

namespace Sys2Proof

/-! ### Fields of a word -/

/-- Bits 15:11, the opcode (R71). -/
def opcodeField (w : Word) : BitVec 5 := w.extractLsb' 11 5

/-- Bits 10:0, the operand field (R71). -/
def operandField (w : Word) : BitVec 11 := w.extractLsb' 0 11

/-- A 3-bit register number (R82). -/
def Reg.ofBits (b : BitVec 3) : Reg :=
  match b.toNat with
  | 0 => .r0 | 1 => .r1 | 2 => .r2 | 3 => .r3 | 4 => .r4 | 5 => .r5 | 6 => .r6 | _ => .r7

/-- The register number as 3 bits (R82). -/
def Reg.bits (r : Reg) : BitVec 3 := BitVec.ofNat 3 r.number

/-- Operand-field bits 8:6: ALU `a`, and the register of REG_TO_IMM3 (R73, R77). -/
def bits86 (f : BitVec 11) : BitVec 3 := f.extractLsb' 6 3

/-- Operand-field bits 5:3: ALU `b`, the immediate of IMM3_TO_REG and REG_TO_IMM3, the register of
IMM3_OR_REG, and the offset of REA and STO (R73, R76, R77, R78). -/
def bits53 (f : BitVec 11) : BitVec 3 := f.extractLsb' 3 3

/-- Operand-field bits 2:0: ALU `c`, and the register of IMM8_TO_REG, IMM3_TO_REG and REG_ONLY (R73, R74,
R76, R79). -/
def bits20 (f : BitVec 11) : BitVec 3 := f.extractLsb' 0 3

/-- Operand-field bits 10:8: the immediate of IMM3_OR_REG (R78). -/
def bits108 (f : BitVec 11) : BitVec 3 := f.extractLsb' 8 3

/-- Operand-field bits 10:3: the immediate of IMM8_TO_REG (R74). -/
def bits103 (f : BitVec 11) : BitVec 8 := f.extractLsb' 3 8

/-- Operand-field bits 10:1: the target of IMM10 (R75). -/
def bits101 (f : BitVec 11) : BitVec 10 := f.extractLsb' 1 10

/-! ### The tables -/

/-- The operand format of an opcode; none for opcodes 27 to 31 (R80, R83). -/
def formatOf (op : BitVec 5) : Option Format :=
  match op.toNat with
  | 0 | 1 | 19 | 24 => some .none
  | 2 | 4 | 5 | 6 | 7 | 8 | 9 | 10 | 11 | 20 | 21 => some .alu
  | 3 | 12 => some .imm8ToReg
  | 13 | 14 | 15 | 16 | 17 | 18 => some .imm10
  | 22 => some .imm3ToReg
  | 23 => some .regToImm3
  | 25 => some .imm3OrReg
  | 26 => some .regOnly
  | _ => none

/-- The operand-field bits a format shows as constant 0 (R84). -/
def reservedMask : Format → BitVec 11
  | .none => 0x7FF#11
  | .alu => 0x600#11
  | .imm8ToReg => 0x000#11
  | .imm10 => 0x001#11
  | .imm3ToReg => 0x7C0#11
  | .regToImm3 => 0x607#11
  | .imm3OrReg => 0x0C7#11
  | .regOnly => 0x7F8#11

/-- The instruction of an opcode and an operand field, reading only the format's fields (R80, R86). -/
def instrOf (op : BitVec 5) (f : BitVec 11) : Option Instr :=
  match op.toNat with
  | 0 => some .nop
  | 1 => some .hlt
  | 2 => some (.add (.ofBits (bits86 f)) (.ofBits (bits53 f)) (.ofBits (bits20 f)))
  | 3 => some (.adi (.ofBits (bits20 f)) (bits103 f))
  | 4 => some (.sub (.ofBits (bits86 f)) (.ofBits (bits53 f)) (.ofBits (bits20 f)))
  | 5 => some (.xor (.ofBits (bits86 f)) (.ofBits (bits53 f)) (.ofBits (bits20 f)))
  | 6 => some (.xno (.ofBits (bits86 f)) (.ofBits (bits53 f)) (.ofBits (bits20 f)))
  | 7 => some (.ior (.ofBits (bits86 f)) (.ofBits (bits53 f)) (.ofBits (bits20 f)))
  | 8 => some (.nor (.ofBits (bits86 f)) (.ofBits (bits53 f)) (.ofBits (bits20 f)))
  | 9 => some (.and (.ofBits (bits86 f)) (.ofBits (bits53 f)) (.ofBits (bits20 f)))
  | 10 => some (.nan (.ofBits (bits86 f)) (.ofBits (bits53 f)) (.ofBits (bits20 f)))
  | 11 => some (.rsh (.ofBits (bits86 f)) (.ofBits (bits53 f)) (.ofBits (bits20 f)))
  | 12 => some (.ldi (.ofBits (bits20 f)) (bits103 f))
  | 13 => some (.jmp (bits101 f))
  | 14 => some (.beq (bits101 f))
  | 15 => some (.bne (bits101 f))
  | 16 => some (.bgt (bits101 f))
  | 17 => some (.blt (bits101 f))
  | 18 => some (.cal (bits101 f))
  | 19 => some .ret
  | 20 => some (.rea (.ofBits (bits86 f)) (bits53 f) (.ofBits (bits20 f)))
  | 21 => some (.sto (.ofBits (bits86 f)) (bits53 f) (.ofBits (bits20 f)))
  | 22 => some (.gpi (.ofBits (bits20 f)) (bits53 f))
  | 23 => some (.gpo (.ofBits (bits86 f)) (bits53 f))
  | 24 => some .bel
  | 25 => some (.pas (bits108 f) (.ofBits (bits53 f)))
  | 26 => some (.pag (.ofBits (bits20 f)))
  | _ => none

/-! ### Decoding -/

/-- What a 16-bit word is: one of three things (R85, R86). -/
inductive Decoded
  /-- A legal instruction. -/
  | instr (i : Instr)
  /-- An opcode from 27 to 31 (R83). -/
  | illegal (op : BitVec 5)
  /-- A legal opcode with a reserved bit set, under RESERVED_BITS_POLICY = fault (R84). -/
  | reserved (op : BitVec 5) (f : BitVec 11)
  deriving DecidableEq, Repr

/-- What the head of a byte sequence is. -/
inductive DecodedBytes
  /-- Two bytes made a word; the rest follows. -/
  | word (d : Decoded) (rest : List Byte)
  /-- Fewer than the two bytes every instruction has (R70). -/
  | truncated (rest : List Byte)
  deriving DecidableEq, Repr

/-- Decode one word: the opcode is checked first, then the reserved bits (R86, R272). -/
def decode (policy : ReservedBitsPolicy) (w : Word) : Decoded :=
  let op := opcodeField w
  let f := operandField w
  match formatOf op with
  | none => .illegal op
  | some fmt =>
    if f &&& reservedMask fmt ≠ 0#11 ∧ policy = .fault then .reserved op f
    else
      match instrOf op f with
      | some i => .instr i
      | none => .illegal op

/-- A word from its bytes, the low byte first (R51, R56). -/
def wordOfBytes (lo hi : Byte) : Word := hi ++ lo

/-- Decode the instruction at the head of a byte sequence; two bytes are consumed (R70). -/
def decodeBytes (policy : ReservedBitsPolicy) : List Byte → DecodedBytes
  | lo :: hi :: rest => .word (decode policy (wordOfBytes lo hi)) rest
  | rest => .truncated rest

/-! ### Encoding -/

/-- The opcode number of an instruction (R80). -/
def Instr.opcode : Instr → BitVec 5
  | .nop => 0 | .hlt => 1 | .add .. => 2 | .adi .. => 3 | .sub .. => 4 | .xor .. => 5 | .xno .. => 6
  | .ior .. => 7 | .nor .. => 8 | .and .. => 9 | .nan .. => 10 | .rsh .. => 11 | .ldi .. => 12
  | .jmp _ => 13 | .beq _ => 14 | .bne _ => 15 | .bgt _ => 16 | .blt _ => 17 | .cal _ => 18 | .ret => 19
  | .rea .. => 20 | .sto .. => 21 | .gpi .. => 22 | .gpo .. => 23 | .bel => 24 | .pas .. => 25
  | .pag _ => 26

/-- Layout ALU: two zeros, then `a`, `b`, `c` (R73). -/
def layoutAlu (a b c : BitVec 3) : BitVec 11 := 0#2 ++ a ++ b ++ c

/-- Layout IMM8_TO_REG: the immediate, then the register (R74). -/
def layoutImm8ToReg (imm8 : BitVec 8) (reg : BitVec 3) : BitVec 11 := imm8 ++ reg

/-- Layout IMM10: the target, then a zero (R75). -/
def layoutImm10 (imm10 : BitVec 10) : BitVec 11 := imm10 ++ 0#1

/-- Layout IMM3_TO_REG: five zeros, the immediate, the register (R76). -/
def layoutImm3ToReg (imm3 reg : BitVec 3) : BitVec 11 := 0#5 ++ imm3 ++ reg

/-- Layout REG_TO_IMM3: two zeros, the register, the immediate, three zeros (R77). -/
def layoutRegToImm3 (reg imm3 : BitVec 3) : BitVec 11 := 0#2 ++ reg ++ imm3 ++ 0#3

/-- Layout IMM3_OR_REG: the immediate, two zeros, the register, three zeros (R78). -/
def layoutImm3OrReg (imm3 reg : BitVec 3) : BitVec 11 := imm3 ++ 0#2 ++ reg ++ 0#3

/-- Layout REG_ONLY: eight zeros, then the register (R79). -/
def layoutRegOnly (reg : BitVec 3) : BitVec 11 := 0#8 ++ reg

/-- The operand field of an instruction, every reserved bit 0 (R87). -/
def Instr.field : Instr → BitVec 11
  | .nop | .hlt | .ret | .bel => 0#11
  | .add a b c | .sub a b c | .xor a b c | .xno a b c | .ior a b c => layoutAlu a.bits b.bits c.bits
  | .nor a b c | .and a b c | .nan a b c | .rsh a b c => layoutAlu a.bits b.bits c.bits
  | .rea a imm3 c | .sto a imm3 c => layoutAlu a.bits imm3 c.bits
  | .adi reg imm8 | .ldi reg imm8 => layoutImm8ToReg imm8 reg.bits
  | .jmp t | .beq t | .bne t | .bgt t | .blt t | .cal t => layoutImm10 t
  | .gpi reg imm3 => layoutImm3ToReg imm3 reg.bits
  | .gpo reg imm3 => layoutRegToImm3 reg.bits imm3
  | .pas imm3 reg => layoutImm3OrReg imm3 reg.bits
  | .pag reg => layoutRegOnly reg.bits

/-- The word of an instruction: the opcode in bits 15:11, the operand field below it (R71, R87). -/
def encode (i : Instr) : Word := i.opcode ++ i.field

/-- The two bytes of a word, low byte first (R88). -/
def wordBytes (w : Word) : List Byte := [w.extractLsb' 0 8, w.extractLsb' 8 8]

/-- The bytes of an instruction in memory order (R87, R88). -/
def encodeBytes (i : Instr) : List Byte := wordBytes (encode i)

/-! ### The assembler's Encode over numbers -/

/-- R87's packing of operand numbers, already validated, by format; none when the count is not the
format's, the internal error of R93. -/
def packOperands : Format → List Nat → Option Nat
  | .none, [] => some 0
  | .alu, [a, b, c] => some (a <<< 6 ||| b <<< 3 ||| c)
  | .imm8ToReg, [reg, imm8] => some (imm8 <<< 3 ||| reg)
  | .imm10, [imm10] => some (imm10 <<< 1)
  | .imm3ToReg, [reg, imm3] => some (imm3 <<< 3 ||| reg)
  | .regToImm3, [reg, imm3] => some (reg <<< 6 ||| imm3 <<< 3)
  | .imm3OrReg, [imm3, reg] => some (imm3 <<< 8 ||| reg <<< 3)
  | .regOnly, [reg] => some reg
  | _, _ => none

/-- R87's `Encode(op, operands)`: the opcode above the packed operands. None for the two internal errors of
R93: an unknown format tag, or a packed word that is not 16 bits. -/
def encodeOperands (op : BitVec 5) (operands : List Nat) : Option Word :=
  match formatOf op with
  | none => none
  | some fmt =>
    match packOperands fmt operands with
    | none => none
    | some f =>
      let w := op.toNat <<< 11 ||| f
      if w < 65536 then some (BitVec.ofNat 16 w) else none

/-! ### The opcode table's numbering -/

/-- The instruction the decoder reads from an instruction whose bits are `w`, bit 0 the least significant
bit of its one word; bits at and above `nbits` are 0. Reserved bits follow the spec's default policy. -/
def decodeTableWord (nbits w : Nat) : Option Instr :=
  let v := w % 2 ^ nbits
  match decodeBytes .fault [BitVec.ofNat 8 v, BitVec.ofNat 8 (v / 256)] with
  | .word (.instr i) _ => some i
  | _ => none

end Sys2Proof
end

