-- ==== Sys2Proof/Machine/Ops.lean ====
section
/-!
DEFINITION. The named operations every meaning is built from: registers, memory, fetch, the call stack, the
pc update, taking a fault, halting, and the calls to the host. There is no return from a fault (R275).
-/

namespace Sys2Proof.Machine

/-! ### Registers -/

/-- Register read: register 0 reads 0 (R22). -/
def Regs.get (x : Regs) : Reg → Byte
  | .r0 => 0#8
  | .r1 => x.r1
  | .r2 => x.r2
  | .r3 => x.r3
  | .r4 => x.r4
  | .r5 => x.r5
  | .r6 => x.r6
  | .r7 => x.r7

/-- Register write: a write to register 0 does nothing (R23). -/
def Regs.set (x : Regs) (r : Reg) (v : Byte) : Regs :=
  match r with
  | .r0 => x
  | .r1 => { x with r1 := v }
  | .r2 => { x with r2 := v }
  | .r3 => { x with r3 := v }
  | .r4 => { x with r4 := v }
  | .r5 => { x with r5 := v }
  | .r6 => { x with r6 := v }
  | .r7 => { x with r7 := v }

/-- `x[r]` (R22). -/
def State.readReg (s : State) (r : Reg) : Byte := s.regs.get r

/-- `x[r] <- v` (R23). -/
def State.writeReg (s : State) (r : Reg) (v : Byte) : State := { s with regs := s.regs.set r v }

/-- Write both flags (R101). -/
def State.writeFlags (s : State) (carry zero : Bool) : State := { s with carry := carry, zero := zero }

/-! ### Memory -/

/-- What an address that memory does not list reads as (R61). -/
def Memory.unlisted : Byte := 0#8

/-- The canonical form: addresses strictly rising and below 2048, and no listed byte equal to what an
unlisted address reads as. -/
abbrev Memory.wf (m : Memory) : Prop :=
  (m.map Prod.fst).Pairwise (· < ·) ∧ ∀ c ∈ m, c.1 < 2048 ∧ c.2 ≠ Memory.unlisted

/-- The byte listed at key `k`. -/
def Memory.lookup : Memory → Nat → Byte
  | [], _ => Memory.unlisted
  | (j, v) :: m, k => if j = k then v else Memory.lookup m k

/-- Set the byte at key `k`, keeping the canonical form. -/
def Memory.insert : Memory → Nat → Byte → Memory
  | [], k, v => if v = Memory.unlisted then [] else [(k, v)]
  | (j, u) :: m, k, v =>
    if j < k then (j, u) :: Memory.insert m k v
    else if j = k then (if v = Memory.unlisted then m else (k, v) :: m)
    else if v = Memory.unlisted then (j, u) :: m
    else (k, v) :: (j, u) :: m

/-- `MemRead(a, 1)` (R10): one byte; every address exists and no read has a side effect (R50, R58). -/
def Memory.read (m : Memory) (a : Addr) : Byte := Memory.lookup m a.toNat

/-- `MemWrite(a, 1, v)` (R10): one byte. -/
def Memory.write (m : Memory) (a : Addr) (v : Byte) : Memory := Memory.insert m a.toNat v

/-- The address of an instruction's low byte, `2*pc` (R51). -/
def lowByteAddr (pc : Pc) : Addr := pc <<< 1

/-- The address of an instruction's high byte, `2*pc + 1` (R51). -/
def highByteAddr (pc : Pc) : Addr := pc <<< 1 + 1#11

/-- The word of the instruction at `pc`, the low byte at the even address (R51); the page register has no
part in it. -/
def Memory.fetch16 (m : Memory) (pc : Pc) : Word :=
  wordOfBytes (m.read (lowByteAddr pc)) (m.read (highByteAddr pc))

/-- Store a word as the instruction at `pc`, in the byte order of R88. -/
def Memory.placeWord (m : Memory) (pc : Pc) (w : Word) : Memory :=
  (m.write (lowByteAddr pc) (w.extractLsb' 0 8)).write (highByteAddr pc) (w.extractLsb' 8 8)

/-- The byte of memory at `a`. -/
def State.readByte (s : State) (a : Addr) : Byte := s.mem.read a

/-- `M[a] <- v`. -/
def State.writeByte (s : State) (a : Addr) (v : Byte) : State := { s with mem := s.mem.write a v }

/-- The fetch stage: IR takes the word at pc (R26). -/
def State.latch (s : State) : State := { s with ir := s.mem.fetch16 s.pc }

/-! ### The call stack -/

/-- R34's Push: the new entry on top, all others one down, the old entry 15 lost in silence. -/
def CallStack.push (stk : CallStack) (v : Index) : CallStack :=
  ⟨(v :: stk.toList.take 15).toArray, by simp⟩

/-- The entries after R36's Pop: all others one up, and 0 in entry 15. -/
def CallStack.popped (stk : CallStack) : CallStack :=
  ⟨(stk.toList.drop 1 ++ [0#10]).toArray, by simp⟩

/-- The entry R36's Pop returns. -/
def CallStack.top (stk : CallStack) : Index := stk[0]

/-- R36's StackEmpty: the sum of all 16 entries is 0. -/
def CallStack.isEmpty (stk : CallStack) : Bool := (stk.toList.map BitVec.toNat).sum == 0

/-! ### The pc -/

/-- The pc update of an instruction that transfers no control: one on, and Halted at the end of the address
space (R26, R27, R28). -/
def State.advance (s : State) : State :=
  let npc := s.pc + 1#11
  { s with pc := npc, run := if npc = 1024#11 then .halted else s.run }

/-- The pc update of a taken transfer: the target, which is never 1024 (R27, R150). -/
def State.jumpTo (s : State) (target : Index) : State := { s with pc := target.setWidth 11 }

/-- A conditional transfer: the target if `taken`, else one on (R150). -/
def State.branch (s : State) (taken : Bool) (target : Index) : State :=
  if taken then s.jumpTo target else s.advance

/-- The return address CAL pushes, `(pc + 1) & 0x3FF` (R34, R156). -/
def State.returnAddress (s : State) : Index := (s.pc + 1#11).setWidth 10

/-! ### Stopping -/

/-- The spec's own number of a fault reason (R270). -/
def FaultReason.code : FaultReason → Nat
  | .illegalOpcode => 1
  | .reservedBits => 2
  | .dataAddressOutOfRange => 3
  | .pageOutOfRange => 4

/-- `raise Fault(reason)` (R271): the run state becomes Faulted and nothing else changes. -/
def State.raiseFault (s : State) (reason : FaultReason) : State := { s with run := .faulted reason }

/-- `halt` (R10, R201). -/
def State.halt (s : State) : State := { s with run := .halted }

/-! ### The host -/

/-- How many bytes the core has taken from the host so far. -/
def inputsTaken : List Event → Nat
  | [] => 0
  | .inEvent _ _ :: es => inputsTaken es + 1
  | .outEvent _ _ :: es => inputsTaken es
  | .bellEvent :: es => inputsTaken es

/-- The byte a table lists for a port and a trace. -/
def tableAnswer (answers : List ((Port × List Event) × Byte)) (port : Port) (trace : List Event) : Option Byte :=
  (answers.find? fun e => e.1 == (port, trace)).map Prod.snd

/-- `In(port)` (R279): the byte the host supplies, or none when it never does. A list's next byte is found by
how many the trace shows as taken, so each is used once, or once each time round. -/
def HostInput.answer (h : HostInput) (port : Port) (trace : List Event) : Option Byte :=
  match h with
  | .oracle n => Config.hostOracle n port trace
  | .stream bytes => bytes[inputsTaken trace]?
  | .repeating bytes => bytes[inputsTaken trace % bytes.length]?
  | .table answers otherwise => (tableAnswer answers port trace).or otherwise

/-- Append an event to the trace (R38). -/
def State.emit (s : State) (e : Event) : State := { s with trace := s.trace ++ [e] }

end Sys2Proof.Machine
end

