-- ==== Sys2Proof/Machine/AluInstr.lean ====
section
/-!
DEFINITION. The nine ALU-op instructions (40_alu R101 to R110).
-/

namespace Sys2Proof.Machine

/-- R101's ExecuteALU: both sources are read first, then the destination and both flags are written,
whatever the destination; the pc moves on by one. -/
def State.aluStep (s : State) (op : AluOp) (a b c : Reg) : State :=
  let out := alu op (s.readReg a) (s.readReg b)
  ((s.writeReg c out.result).writeFlags out.carry out.zero).advance

/-- ADD (R102). -/
def execAdd (a b c : Reg) (s : State) : Host.Outcome State Fault Refusal := .next (s.aluStep .add a b c)

/-- SUB (R103). -/
def execSub (a b c : Reg) (s : State) : Host.Outcome State Fault Refusal := .next (s.aluStep .sub a b c)

/-- XOR, with the magnitude-compare carry (R104). -/
def execXor (a b c : Reg) (s : State) : Host.Outcome State Fault Refusal := .next (s.aluStep .xor a b c)

/-- XNO, with ADD's carry (R105). -/
def execXno (a b c : Reg) (s : State) : Host.Outcome State Fault Refusal := .next (s.aluStep .xno a b c)

/-- IOR (R106). -/
def execIor (a b c : Reg) (s : State) : Host.Outcome State Fault Refusal := .next (s.aluStep .ior a b c)

/-- NOR (R107). -/
def execNor (a b c : Reg) (s : State) : Host.Outcome State Fault Refusal := .next (s.aluStep .nor a b c)

/-- AND (R108). -/
def execAnd (a b c : Reg) (s : State) : Host.Outcome State Fault Refusal := .next (s.aluStep .and a b c)

/-- NAN, which computes `(~a) & (~b)` (R109). -/
def execNan (a b c : Reg) (s : State) : Host.Outcome State Fault Refusal := .next (s.aluStep .nan a b c)

/-- RSH, add then shift right by one (R110). -/
def execRsh (a b c : Reg) (s : State) : Host.Outcome State Fault Refusal := .next (s.aluStep .rsh a b c)

end Sys2Proof.Machine
end

