-- ==== Sys2Proof/Machine/Control.lean ====
section
/-!
DEFINITION. Control transfer (42_control R150 to R157).
-/

namespace Sys2Proof.Machine

/-- JMP (R151). -/
def execJmp (imm10 : BitVec 10) (s : State) : Host.Outcome State Fault Refusal := .next (s.jumpTo imm10)

/-- BEQ: taken when Z is 1 (R152). -/
def execBeq (imm10 : BitVec 10) (s : State) : Host.Outcome State Fault Refusal := .next (s.branch s.zero imm10)

/-- BNE: taken when Z is 0 (R153). -/
def execBne (imm10 : BitVec 10) (s : State) : Host.Outcome State Fault Refusal := .next (s.branch (!s.zero) imm10)

/-- BGT: taken when C is 1 (R154). -/
def execBgt (imm10 : BitVec 10) (s : State) : Host.Outcome State Fault Refusal := .next (s.branch s.carry imm10)

/-- BLT: taken when C is 0 (R155). -/
def execBlt (imm10 : BitVec 10) (s : State) : Host.Outcome State Fault Refusal := .next (s.branch (!s.carry) imm10)

/-- CAL: push `pc + 1`, then jump (R156). -/
def execCal (imm10 : BitVec 10) (s : State) : Host.Outcome State Fault Refusal :=
  .next ({ s with stack := s.stack.push s.returnAddress }.jumpTo imm10)

/-- RET: on an empty stack nothing but the pc's advance; else pop and jump there, a popped 0 included (R157). -/
def execRet (s : State) : Host.Outcome State Fault Refusal :=
  if s.stack.isEmpty then .next s.advance
  else .next ({ s with stack := s.stack.popped }.jumpTo s.stack.top)

end Sys2Proof.Machine
end

