-- ==== Sys2Proof/Machine/Immediate.lean ====
section
/-!
DEFINITION. The immediate instructions (41_immediate R140, R141).
-/

namespace Sys2Proof.Machine

/-- ADI (R140): `x[reg] + imm8` modulo 256. The flags are left alone, or written as ADD writes them under
ADI_WRITES_FLAGS. -/
def execAdi (reg : Reg) (imm8 : BitVec 8) (s : State) : Host.Outcome State Fault Refusal :=
  let out := alu .add (s.readReg reg) imm8
  let t := s.writeReg reg out.result
  .next (if s.cfg.adiWritesFlags then t.writeFlags out.carry out.zero else t).advance

/-- LDI (R141). -/
def execLdi (reg : Reg) (imm8 : BitVec 8) (s : State) : Host.Outcome State Fault Refusal :=
  .next (s.writeReg reg imm8).advance

end Sys2Proof.Machine
end

