-- ==== Sys2Proof/Machine/Operands.lean ====
section
/-!
DEFINITION. The operand forms that take a computation: the data address of REA and STO (R52, R54) and the
page value of PAS (R182). Register and immediate operands are read as they stand, every immediate
zero-extended (R81, R82).
-/

namespace Sys2Proof.Machine

/-- The offset of REA and STO, `x[a] + imm3`, exact (R54). -/
def State.dataOffset (s : State) (a : Reg) (imm3 : BitVec 3) : Nat := (s.readReg a).toNat + imm3.toNat

/-- The linear address `(PG << 8) + offset` (R52). -/
def linearAddr (page : Page) (offset : Nat) : Nat := page.toNat * 256 + offset

/-- `DataAddr(offset)` (R52); none where it raises DataAddressOutOfRange. -/
def dataAddr (policy : OffsetOverflow) (page : Page) (offset : Nat) : Option Addr :=
  if offset ≤ 255 then some (BitVec.ofNat 11 (linearAddr page offset))
  else
    match policy with
    | .fault => none
    | .spill => if linearAddr page offset > 2047 then none else some (BitVec.ofNat 11 (linearAddr page offset))
    | .wrap => some (BitVec.ofNat 11 (linearAddr page (offset % 256)))

/-- The byte address REA and STO access (R52, R54); none where the access faults. -/
def State.effectiveAddr (s : State) (a : Reg) (imm3 : BitVec 3) : Option Addr :=
  dataAddr s.cfg.offsetOverflow s.page (s.dataOffset a imm3)

/-- The value PAS computes, `imm3 | x[reg]`, 8 bits (R182). -/
def State.pageValue (s : State) (imm3 : BitVec 3) (reg : Reg) : Byte := imm3.setWidth 8 ||| s.readReg reg

/-- The page PAS sets from a value; none where it raises PageOutOfRange (R182). -/
def pageOf (policy : PageOverflow) (v : Byte) : Option Page :=
  if v ≤ 7#8 then some (v.setWidth 3)
  else
    match policy with
    | .fault => none
    | .mask => some ((v &&& 7#8).setWidth 3)

end Sys2Proof.Machine
end

