-- ==== Sys2Proof/Machine/MemPage.lean ====
section
/-!
DEFINITION. Memory and page instructions (43_memory_page R180 to R183). A faulting one takes the fault and
has no other effect (R271).
-/

namespace Sys2Proof.Machine

/-- REA (R180): the address is formed and the byte read before the register is written. -/
def execRea (a : Reg) (imm3 : BitVec 3) (c : Reg) (s : State) : Host.Outcome State Fault Refusal :=
  match s.effectiveAddr a imm3 with
  | some addr => .next (s.writeReg c (s.readByte addr)).advance
  | none => .next (s.raiseFault .dataAddressOutOfRange)

/-- STO (R181). -/
def execSto (a : Reg) (imm3 : BitVec 3) (c : Reg) (s : State) : Host.Outcome State Fault Refusal :=
  match s.effectiveAddr a imm3 with
  | some addr => .next (s.writeByte addr (s.readReg c)).advance
  | none => .next (s.raiseFault .dataAddressOutOfRange)

/-- PAS (R182): bitwise OR, not addition. -/
def execPas (imm3 : BitVec 3) (reg : Reg) (s : State) : Host.Outcome State Fault Refusal :=
  match pageOf s.cfg.pageOverflow (s.pageValue imm3 reg) with
  | some p => .next { s with page := p }.advance
  | none => .next (s.raiseFault .pageOutOfRange)

/-- PAG (R183): the page zero-extended to 8 bits. -/
def execPag (reg : Reg) (s : State) : Host.Outcome State Fault Refusal :=
  .next (s.writeReg reg (s.page.setWidth 8)).advance

end Sys2Proof.Machine
end

