-- ==== Sys2Proof/Machine/System.lean ====
section
/-!
DEFINITION. System and I/O instructions (44_io_system R200 to R204).
-/

namespace Sys2Proof.Machine

/-- NOP: nothing but the pc's advance (R200). -/
def execNop (s : State) : Host.Outcome State Fault Refusal := .next s.advance

/-- HLT: Halted, the pc still at this instruction (R201). -/
def execHlt (s : State) : Host.Outcome State Fault Refusal := .next s.halt

/-- GPI (R202): take one byte from the host. While the host does not answer, the core stays Running in this
cycle and nothing changes (R279, R284). -/
def execGpi (reg : Reg) (imm3 : BitVec 3) (s : State) : Host.Outcome State Fault Refusal :=
  match s.host.answer imm3 s.trace with
  | some v => .next ((s.emit (.inEvent imm3 v)).writeReg reg v).advance
  | none => .next s

/-- GPO (R203): hand one byte to the host, which cannot refuse it (R280). -/
def execGpo (reg : Reg) (imm3 : BitVec 3) (s : State) : Host.Outcome State Fault Refusal :=
  .next (s.emit (.outEvent imm3 (s.readReg reg))).advance

/-- BEL: ring the host's bell (R204, R281). -/
def execBel (s : State) : Host.Outcome State Fault Refusal := .next (s.emit .bellEvent).advance

end Sys2Proof.Machine
end

