-- ==== Sys2Proof/Machine/Dispatch.lean ====
section
/-!
DEFINITION. The meaning of every instruction, one arm per constructor of `Instr`.
-/

namespace Sys2Proof.Machine

def exec (i : Instr) (s : State) : Host.Outcome State Fault Refusal :=
  match i with
  | .nop => Sys2Proof.Machine.execNop s
  | .hlt => Sys2Proof.Machine.execHlt s
  | .add a b c => Sys2Proof.Machine.execAdd a b c s
  | .adi reg imm8 => Sys2Proof.Machine.execAdi reg imm8 s
  | .sub a b c => Sys2Proof.Machine.execSub a b c s
  | .xor a b c => Sys2Proof.Machine.execXor a b c s
  | .xno a b c => Sys2Proof.Machine.execXno a b c s
  | .ior a b c => Sys2Proof.Machine.execIor a b c s
  | .nor a b c => Sys2Proof.Machine.execNor a b c s
  | .and a b c => Sys2Proof.Machine.execAnd a b c s
  | .nan a b c => Sys2Proof.Machine.execNan a b c s
  | .rsh a b c => Sys2Proof.Machine.execRsh a b c s
  | .ldi reg imm8 => Sys2Proof.Machine.execLdi reg imm8 s
  | .jmp imm10 => Sys2Proof.Machine.execJmp imm10 s
  | .beq imm10 => Sys2Proof.Machine.execBeq imm10 s
  | .bne imm10 => Sys2Proof.Machine.execBne imm10 s
  | .bgt imm10 => Sys2Proof.Machine.execBgt imm10 s
  | .blt imm10 => Sys2Proof.Machine.execBlt imm10 s
  | .cal imm10 => Sys2Proof.Machine.execCal imm10 s
  | .ret => Sys2Proof.Machine.execRet s
  | .rea a imm3 c => Sys2Proof.Machine.execRea a imm3 c s
  | .sto a imm3 c => Sys2Proof.Machine.execSto a imm3 c s
  | .gpi reg imm3 => Sys2Proof.Machine.execGpi reg imm3 s
  | .gpo reg imm3 => Sys2Proof.Machine.execGpo reg imm3 s
  | .bel => Sys2Proof.Machine.execBel s
  | .pas imm3 reg => Sys2Proof.Machine.execPas imm3 reg s
  | .pag reg => Sys2Proof.Machine.execPag reg s

end Sys2Proof.Machine
end

