-- ==== Sys2Proof/Machine/Cycle.lean ====
section
/-!
DEFINITION. The execution cycle (R26), which `step` runs.
-/

namespace Sys2Proof.Machine

/-- The stages after fetch: an instruction is executed; an illegal word takes its fault (R26, R83, R84). -/
def runDecoded (d : Decoded) (s : State) : Host.Outcome State Fault Refusal :=
  match d with
  | .instr i => exec i s
  | .illegal _ => .next (s.raiseFault .illegalOpcode)
  | .reserved _ _ => .next (s.raiseFault .reservedBits)

/-- R26's Cycle: fetch into IR, decode under RESERVED_BITS_POLICY, execute. It runs while the core is Running
and pc is below 1024; otherwise there is no next state (R35). -/
def cycle (s : State) : Host.Outcome State Fault Refusal :=
  match s.run with
  | .running =>
    if s.pc < 1024#11 then runDecoded (decode s.cfg.reservedBits s.latch.ir) s.latch
    else .fault .pcOutOfRange
  | .halted => .fault .halted
  | .faulted reason => .fault (.faulted reason)

end Sys2Proof.Machine
end

