-- ==== Sys2Proof/Machine/Step.lean ====
section
/-!
DEFINITION. One step of the machine, and where the instruction it fetches next is stored.
-/

namespace Sys2Proof.Machine

/-- One step is one cycle (R26, R307). -/
def step (s : State) : Host.Outcome State Fault Refusal := cycle s

/-- `s` with the 16-bit word `w` (its bits at and above `nbits` 0) stored where `step` fetches next. -/
def State.withFetchWord (s : State) (nbits w : Nat) : State :=
  { s with mem := s.mem.placeWord s.pc (BitVec.ofNat 16 (w % 2 ^ nbits)) }

end Sys2Proof.Machine
end

