-- ==== Sys2Proof/Machine/AsmText.lean ====
section
/-!
DEFINITION. The assembler's reading of text: comments, tokens, numeric literals and mnemonics (49_assembler
R222, R223, R230, R231). A source line is a list of characters.
-/

namespace Sys2Proof.Asm

/-- A source line, a token or a name. -/
abbrev Text := List Char

/-- Whitespace is space and tab (R223). -/
def isBlank (c : Char) : Bool := c == ' ' || c == '\t'

/-- A line without its comment, which starts at the first `;` (R222). -/
def stripComment (line : Text) : Text := line.takeWhile (· != ';')

/-- A text without the whitespace at its two ends (R222). -/
def trim (t : Text) : Text := ((t.dropWhile isBlank).reverse.dropWhile isBlank).reverse

/-- The token collected so far, in reverse, if there is one. -/
def flushToken (collected : Text) : List Text := if collected.isEmpty then [] else [collected.reverse]

/-- Tokens of a text that follows the characters of `collected`. -/
def tokensFrom : Text → Text → List Text
  | [], collected => flushToken collected
  | c :: cs, collected =>
    if isBlank c then flushToken collected ++ tokensFrom cs [] else tokensFrom cs (c :: collected)

/-- The maximal runs of non-whitespace characters (R223). -/
def tokens (t : Text) : List Text := tokensFrom t []

/-- Lower-cased text, for comparing names (R228); letters outside ASCII stay as they are (log 12). -/
def lower (t : Text) : Text := t.map Char.toLower

/-- The value of decimal digits after those already worth `acc`; none if another character stands there. -/
def digitsValue : Text → Nat → Option Nat
  | [], acc => some acc
  | c :: cs, acc =>
    if '0'.toNat ≤ c.toNat ∧ c.toNat ≤ '9'.toNat then digitsValue cs (acc * 10 + (c.toNat - '0'.toNat)) else none

/-- One or more decimal digits and nothing else. -/
def unsignedLiteral (t : Text) : Option Nat := if t.isEmpty then none else digitsValue t 0

/-- A numeric literal: an optional sign and decimal digits, of any length (R230). -/
def numericLiteral : Text → Option Int
  | '+' :: cs => (unsignedLiteral cs).map Int.ofNat
  | '-' :: cs => (unsignedLiteral cs).map fun n => -(n : Int)
  | cs => (unsignedLiteral cs).map Int.ofNat

/-- The mnemonics, lower-cased, and their opcodes (R80, R231). -/
def mnemonics : List (Text × BitVec 5) :=
  [("nop".toList, 0), ("hlt".toList, 1), ("add".toList, 2), ("adi".toList, 3), ("sub".toList, 4),
   ("xor".toList, 5), ("xno".toList, 6), ("ior".toList, 7), ("nor".toList, 8), ("and".toList, 9),
   ("nan".toList, 10), ("rsh".toList, 11), ("ldi".toList, 12), ("jmp".toList, 13), ("beq".toList, 14),
   ("bne".toList, 15), ("bgt".toList, 16), ("blt".toList, 17), ("cal".toList, 18), ("ret".toList, 19),
   ("rea".toList, 20), ("sto".toList, 21), ("gpi".toList, 22), ("gpo".toList, 23), ("bel".toList, 24),
   ("pas".toList, 25), ("pag".toList, 26)]

/-- The opcode of a mnemonic, whatever its case (R231). -/
def opcodeOfMnemonic (t : Text) : Option (BitVec 5) :=
  (mnemonics.find? fun e => e.1 == lower t).map Prod.snd

end Sys2Proof.Asm
end

