-- ==== Sys2Proof/Machine/Image.lean ====
section
/-!
DEFINITION. The binary image (R89, R90) and starting the core with one (R300, R301).
-/

namespace Sys2Proof.Machine

/-- The largest image, in bytes (R90). -/
def imageLimit : Nat := 2048

/-- The image of a program: its words' bytes in order, then one byte per variable (R90). -/
def imageBytes (words : List Word) (data : List Byte) : List Byte := words.flatMap wordBytes ++ data

/-- Memory that holds the bytes from address `k` on and 0 elsewhere (R301). -/
def memoryFrom (k : Nat) : List Byte → Memory
  | [] => []
  | b :: bs => if b = Memory.unlisted then memoryFrom (k + 1) bs else (k, b) :: memoryFrom (k + 1) bs

/-- Start a run: reset (R300), the image copied to memory from address 0 (R301), under the given parameters
and host. None for an image over 2048 bytes: the core does not start. -/
def State.boot (cfg : Config) (host : HostInput) (image : List Byte) : Option State :=
  if image.length ≤ imageLimit then
    some { State.reset with mem := memoryFrom 0 image, cfg := cfg, host := host }
  else none

end Sys2Proof.Machine
end

