-- ==== Sys2Proof/Machine/Assembler.lean ====
section
/-!
DEFINITION. The assembler (49_assembler R220 to R241): a pure function from source lines to an image or a
count of errors. Pass 1 classifies every line and records every name; variables then get their addresses;
pass 2 resolves and checks each instruction; the image is emitted only if there was no error.
-/

namespace Sys2Proof.Asm

open Sys2Proof.Machine (imageBytes imageLimit)

/-! ### Session state (R221) -/

/-- What a line is (R221, R224). -/
inductive LineKind
  | instruction | dataVariable | subroutine | definition | invalid
  deriving DecidableEq, Repr

/-- What a name stands for (R221, R241). -/
inductive SymbolKind
  | register | port | subroutine | dataVariable | definition
  deriving DecidableEq, Repr

/-- A name's value; a variable's is unresolved until R232. -/
inductive SymbolValue
  | unresolved
  | value (n : Nat)
  deriving DecidableEq, Repr

/-- An entry of the symbol table, its name lower-cased. -/
structure Symbol where
  name : Text
  kind : SymbolKind
  value : SymbolValue
  deriving DecidableEq, Repr

/-- The syntax errors (R240). -/
inductive SyntaxError
  | unknownMnemonic | wrongArgumentCount | duplicateName | badName | badLiteral | undefinedName | operandOverflow
  deriving DecidableEq, Repr

/-- A source line's record. -/
structure Record where
  tokens : List Text
  kind : LineKind
  opcode : Option (BitVec 5) := none
  format : Option Format := none
  address : Option Nat := none
  name : Option Text := none
  source : Text
  deriving DecidableEq, Repr

/-- The session state of an assembler run. -/
structure Session where
  records : List Record := []
  symbols : List Symbol
  varValues : List (Text × Byte) := []
  varOrder : List Text := []
  instructionCounter : Nat := 0
  errors : Nat := 0
  deriving DecidableEq, Repr

/-- The names known before the first line: the registers, and the ports in the later variant (R229). -/
def seededSymbols (cfg : AsmConfig) : List Symbol :=
  let registers := ["r0", "r1", "r2", "r3", "r4", "r5", "r6", "r7"]
  let ports := ["p0", "p1", "p2", "p3", "p4", "p5", "p6", "p7"]
  let seed := fun kind (e : String × Nat) => Symbol.mk e.1.toList kind (.value e.2)
  registers.zipIdx.map (seed .register) ++ if cfg.portAliases then ports.zipIdx.map (seed .port) else []

/-- The session before the first line. -/
def Session.initial (cfg : AsmConfig) : Session := { symbols := seededSymbols cfg }

/-- The entry of a name, compared without regard to case (R228, R233). -/
def findSymbol (symbols : List Symbol) (name : Text) : Option Symbol :=
  symbols.find? fun e => e.name == lower name

/-! ### Pass 1 -/

/-- Classification of a stripped line, in the spec's order of tests (R222, R224). -/
def classify (body : Text) : LineKind :=
  if body.isEmpty then .invalid
  else if body.getLast? == some ':' then .subroutine
  else if body.head? == some '.' then .dataVariable
  else if body.head? == some '#' then .definition
  else .instruction

/-- R228's tests of a new name; the lower-cased name if it passes. -/
def checkName (symbols : List Symbol) (name : Text) : Except SyntaxError Text :=
  if name.isEmpty then .error .badName
  else if (numericLiteral name).isSome then .error .badName
  else if (findSymbol symbols name).isSome then .error .duplicateName
  else .ok (lower name)

/-- Declare a name: its record, and its entry in the symbol table. -/
def Session.declare (s : Session) (source : Text) (toks : List Text) (kind : LineKind) (entry : Symbol) : Session :=
  { s with
    records := s.records ++ [{ tokens := toks, kind := kind, name := some entry.name, source := source }]
    symbols := s.symbols ++ [entry] }

/-- `name:` (R225): the index of the next instruction. -/
def declareSubroutine (s : Session) (source : Text) (toks : List Text) : Except SyntaxError Session :=
  match toks with
  | [t] =>
    match checkName s.symbols t.dropLast with
    | .ok name => .ok (s.declare source toks .subroutine ⟨name, .subroutine, .value s.instructionCounter⟩)
    | .error e => .error e
  | _ => .error .wrongArgumentCount

/-- `.name value` (R226): a byte of the data segment. -/
def declareVariable (s : Session) (source : Text) (toks : List Text) : Except SyntaxError Session :=
  match toks with
  | [t, v] =>
    match checkName s.symbols (t.drop 1), numericLiteral v with
    | .ok name, some n =>
      if 0 ≤ n ∧ n ≤ 255 then
        let d := s.declare source toks .dataVariable ⟨name, .dataVariable, .unresolved⟩
        .ok { d with
              varValues := s.varValues ++ [(name, BitVec.ofNat 8 n.toNat)]
              varOrder := s.varOrder ++ [name] }
      else .error .badLiteral
    | .ok _, none => .error .badLiteral
    | .error e, _ => .error e
  | _ => .error .wrongArgumentCount

/-- `#name value` (R227): a number of no upper bound. -/
def declareDefinition (s : Session) (source : Text) (toks : List Text) : Except SyntaxError Session :=
  match toks with
  | [t, v] =>
    match checkName s.symbols (t.drop 1), numericLiteral v with
    | .ok name, some n =>
      if 0 ≤ n then .ok (s.declare source toks .definition ⟨name, .definition, .value n.toNat⟩)
      else .error .badLiteral
    | .ok _, none => .error .badLiteral
    | .error e, _ => .error e
  | _ => .error .wrongArgumentCount

/-- A candidate instruction (R231): its opcode, format and byte address; the operands wait for pass 2. -/
def recordInstruction (s : Session) (source : Text) (toks : List Text) : Except SyntaxError Session :=
  match toks with
  | [] => .error .unknownMnemonic
  | t :: _ =>
    match opcodeOfMnemonic t with
    | none => .error .unknownMnemonic
    | some op =>
      let r : Record :=
        { tokens := toks, kind := .instruction, opcode := some op, format := formatOf op,
          address := some (s.instructionCounter <<< 1), source := source }
      .ok { s with records := s.records ++ [r], instructionCounter := s.instructionCounter + 1 }

/-- An Invalid record: no name, no bytes, no advance of the counter (R239). -/
def Session.dropLine (s : Session) (source : Text) (toks : List Text) : Session :=
  { s with records := s.records ++ [{ tokens := toks, kind := .invalid, source := source }] }

/-- Pass 1 on one line (R222 to R231); a blank line is dropped without an error. -/
def classifyLine (s : Session) (line : Text) : Session :=
  let body := trim (stripComment line)
  let toks := tokens body
  let outcome : Except SyntaxError Session :=
    match classify body with
    | .invalid => .ok (s.dropLine line toks)
    | .subroutine => declareSubroutine s line toks
    | .dataVariable => declareVariable s line toks
    | .definition => declareDefinition s line toks
    | .instruction => recordInstruction s line toks
  match outcome with
  | .ok t => t
  | .error _ => { s.dropLine line toks with errors := s.errors + 1 }

/-- Pass 1 over all lines, in order. -/
def passOne (cfg : AsmConfig) (lines : List Text) : Session := lines.foldl classifyLine (.initial cfg)

/-! ### Variable addresses -/

/-- A variable's address `(programCount << 1) + ordinal` (R232); other entries keep their value. -/
def resolveSymbol (programCount : Nat) (varOrder : List Text) (e : Symbol) : Symbol :=
  match e.kind, varOrder.findIdx? (· == e.name) with
  | .dataVariable, some i => { e with value := .value (programCount <<< 1 + i) }
  | _, _ => e

/-- The symbol table between the passes (R232). -/
def Session.resolvedSymbols (s : Session) : List Symbol :=
  s.symbols.map (resolveSymbol s.instructionCounter s.varOrder)

/-! ### Pass 2 -/

/-- The value of an operand token: a literal's, or its name's (R233). -/
def operandValue (symbols : List Symbol) (t : Text) : Except SyntaxError Int :=
  match numericLiteral t with
  | some n => .ok n
  | none =>
    match (findSymbol symbols t).map Symbol.value with
    | some (.value n) => .ok (n : Int)
    | some .unresolved | none => .error .undefinedName

/-- The values of all operand tokens, or the first one's error (R233). -/
def operandValues (symbols : List Symbol) : List Text → Except SyntaxError (List Int)
  | [] => .ok []
  | t :: ts =>
    match operandValue symbols t, operandValues symbols ts with
    | .ok n, .ok ns => .ok (n :: ns)
    | .error e, _ => .error e
    | .ok _, .error e => .error e

/-- The two shorthands, `RSH a c` and `PAS b` (R234). -/
def expandShorthand (op : BitVec 5) (vals : List Int) : List Int :=
  match op.toNat, vals with
  | 11, [a, c] => [a, 0, c]
  | 25, [b] => [0, b]
  | _, vs => vs

/-- An instruction whose operands are numbers in range. -/
structure Resolved where
  opcode : BitVec 5
  operands : List Nat
  deriving DecidableEq, Repr

/-- R235's and R236's checks, in that order. -/
def checkOperands (op : BitVec 5) (fmt : Format) (vals : List Int) : Except SyntaxError Resolved :=
  if operandCountOk fmt vals then
    if operandRangesOk fmt vals then .ok ⟨op, vals.map Int.toNat⟩ else .error .operandOverflow
  else .error .wrongArgumentCount

/-- Pass 2 on one record (R233 to R236). -/
def resolveRecord (symbols : List Symbol) (r : Record) : Option (Except SyntaxError Resolved) :=
  match r.kind, r.opcode, r.format with
  | .instruction, some op, some fmt =>
    match operandValues symbols (r.tokens.drop 1) with
    | .ok vals => some (checkOperands op fmt (expandShorthand op vals))
    | .error e => some (.error e)
  | _, _, _ => none

/-- Pass 2's instructions, in program order. -/
def resolvedInstructions (outcomes : List (Except SyntaxError Resolved)) : List Resolved :=
  outcomes.filterMap fun o =>
    match o with
    | .ok r => some r
    | .error _ => none

/-- Pass 2's number of errors: one for each record that fails (log 13). -/
def countErrors (outcomes : List (Except SyntaxError Resolved)) : Nat :=
  outcomes.countP fun o =>
    match o with
    | .ok _ => false
    | .error _ => true

/-! ### Emission -/

/-- What assembling gives (R220). -/
inductive AsmResult
  /-- The image's bytes. -/
  | image (bytes : List Byte)
  /-- No image: the number of errors, at least 1. -/
  | failed (errors : Nat)
  /-- The encoder's internal error of R93, which aborts with no result; it cannot occur. -/
  | internalError
  deriving DecidableEq, Repr

/-- The words of the instructions; none on the internal error of R93. -/
def encodeAll : List Resolved → Option (List Word)
  | [] => some []
  | r :: rs =>
    match encodeOperands r.opcode r.operands, encodeAll rs with
    | some w, some ws => some (w :: ws)
    | _, _ => none

/-- The data segment: each variable's byte, in declaration order (R89, R237). -/
def Session.dataSegment (s : Session) : List Byte :=
  s.varOrder.filterMap fun name => (s.varValues.find? fun e => e.1 == name).map Prod.snd

/-- Emission (R237): nothing if there was an error, or if the image is over 2048 bytes. -/
def emitImage (errors : Nat) (program : List Resolved) (data : List Byte) : AsmResult :=
  if errors = 0 then
    match encodeAll program with
    | none => .internalError
    | some words =>
      if (imageBytes words data).length ≤ imageLimit then .image (imageBytes words data) else .failed 1
  else .failed errors

/-- R220's Assemble. -/
def assemble (cfg : AsmConfig) (lines : List Text) : AsmResult :=
  let s := passOne cfg lines
  let outcomes := s.records.filterMap (resolveRecord s.resolvedSymbols)
  emitImage (s.errors + countErrors outcomes) (resolvedInstructions outcomes) s.dataSegment

/-- Assembling lines given as strings. -/
def assembleLines (cfg : AsmConfig) (lines : List String) : AsmResult := assemble cfg (lines.map String.toList)

end Sys2Proof.Asm
end

