-- ==== Sys2Proof/Machine/Run.lean ====
section
/-!
DEFINITION. Runs of the core: how many cycles the host lets complete, and how a run ends (R285, R286).
-/

namespace Sys2Proof.Machine

/-- The state after at most `k` cycles, stopping where there is no next one. A host kill (R286) leaves
`runCycles k s` for the number `k` of cycles completed before it. -/
def runCycles : Nat → State → State
  | 0, s => s
  | k + 1, s =>
    match step s with
    | .next t => runCycles k t
    | .fault _ => s
    | .refused _ => s

/-- The ways a run ends by itself (R285). -/
inductive RunEnd
  | hltExecuted
  | endOfAddressSpace
  | fault (reason : FaultReason)
  deriving DecidableEq, Repr

/-- How the run that reached this state has ended; none while the core is Running (R285). -/
def State.ending (s : State) : Option RunEnd :=
  match s.run with
  | .running => none
  | .halted => if s.pc = 1024#11 then some .endOfAddressSpace else some .hltExecuted
  | .faulted reason => some (.fault reason)

/-- The core is Running in a GPI the host never answers, the stuck state of R279. -/
def State.waitsForInput (s : State) : Bool :=
  match s.run, decode s.cfg.reservedBits (s.mem.fetch16 s.pc) with
  | .running, .instr (.gpi _ port) => decide (s.pc < 1024#11) && (s.host.answer port s.trace).isNone
  | _, _ => false

end Sys2Proof.Machine
end

