-- ==== Sys2Proof/Safety.lean ====
section
/-!
DEFINITION. The terms the statements use: a well-kept state, how a run may end, what an instruction keeps
and what it writes, and how an instruction is written down.
-/

namespace Sys2Proof.Machine

/-! ### States and runs -/

/-- The invariant of the core: memory is in canonical form (log 7), the pc is at most 1024 (R25), and only a
Halted core has pc 1024 (R28). -/
structure State.Inv (s : State) : Prop where
  mem_wf : s.mem.wf
  pc_le : s.pc.toNat ≤ 1024
  end_halted : s.pc.toNat = 1024 → s.run = .halted

/-- A cycle runs: the core is Running and pc is below 1024 (R26). -/
def State.Cycles (s : State) : Prop := s.run = .running ∧ s.pc.toNat < 1024

/-- A run is safe when no number of cycles leads to a fault (R270). -/
def State.Safe (s : State) : Prop := ∀ k reason, (runCycles k s).ending ≠ some (.fault reason)

/-- What the fetched word decodes to (R26, R86). -/
def State.fetched (s : State) : Decoded := decode s.cfg.reservedBits (s.mem.fetch16 s.pc)

/-! ### What an instruction keeps -/

/-- The parts of the state a frame speaks of. -/
inductive Part
  | registers | flags | page | stack | memory | trace
  deriving DecidableEq, Repr

/-- `t` agrees with `s` on a part: every register as it reads, every byte of memory as it reads. -/
def Part.Kept (s t : State) : Part → Prop
  | .registers => ∀ r, t.readReg r = s.readReg r
  | .flags => t.carry = s.carry ∧ t.zero = s.zero
  | .page => t.page = s.page
  | .stack => t.stack = s.stack
  | .memory => ∀ a, t.readByte a = s.readByte a
  | .trace => t.trace = s.trace

/-- Every part outside the list is kept, and so are IR and the model's own two fields; the pc and the run
state are not spoken of. -/
def KeptBut (s t : State) (parts : List Part) : Prop :=
  (∀ p, p ∉ parts → Part.Kept s t p) ∧ t.ir = s.ir ∧ t.cfg = s.cfg ∧ t.host = s.host

/-! ### What an instruction writes -/

/-- `x[c] <- v`: register `c` reads `v` after (0 if `c` is register 0, which discards the write), every other
register as before (R22, R23). -/
def RegWritten (s t : State) (c : Reg) (v : Byte) : Prop :=
  (t.readReg c = if c = .r0 then 0#8 else v) ∧ ∀ r, r ≠ c → t.readReg r = s.readReg r

/-- Both flags after: C is 1 exactly when `c` holds, Z exactly when `z` does. -/
def FlagsAre (t : State) (c z : Prop) : Prop := (t.carry = true ↔ c) ∧ (t.zero = true ↔ z)

/-- The pc moved on by one; from index 1023 it reached the end and the core is Halted (R27, R28). -/
def MovedOn (s t : State) : Prop :=
  t.pc = s.pc + 1#11 ∧ t.run = if s.pc = 1023#11 then .halted else s.run

/-- Control went to the target; the run state stayed (R27, R150). -/
def WentTo (s t : State) (target : Index) : Prop := t.pc.toNat = target.toNat ∧ t.run = s.run

/-- The fault was taken: the run state says so, the pc stayed, and nothing else changed (R271). -/
def TookFault (s t : State) (reason : FaultReason) : Prop :=
  t.run = .faulted reason ∧ t.pc = s.pc ∧ t.regs = s.regs ∧ t.mem = s.mem ∧ KeptBut s t []

/-! ### Which instructions write what (R24) -/

/-- The register in an instruction's "writes" column of R24. -/
def destination : Instr → Option Reg
  | .add _ _ c | .sub _ _ c | .xor _ _ c | .xno _ _ c | .ior _ _ c | .nor _ _ c | .and _ _ c | .nan _ _ c => some c
  | .rsh _ _ c | .rea _ _ c => some c
  | .adi reg _ | .ldi reg _ | .gpi reg _ | .pag reg => some reg
  | .nop | .hlt | .jmp _ | .beq _ | .bne _ | .bgt _ | .blt _ | .cal _ | .ret | .sto .. | .gpo .. | .bel | .pas .. => none

/-- The nine ALU-op instructions (R100). -/
def isAluOp : Instr → Bool
  | .add .. | .sub .. | .xor .. | .xno .. | .ior .. | .nor .. | .and .. | .nan .. | .rsh .. => true
  | .nop | .hlt | .adi .. | .ldi .. | .jmp _ | .beq _ | .bne _ | .bgt _ | .blt _ | .cal _ | .ret => false
  | .rea .. | .sto .. | .gpi .. | .gpo .. | .bel | .pas .. | .pag _ => false

/-! ### How an instruction is written -/

/-- How an instruction is written: the assembler knows the mnemonic by its opcode, the opcode has the format,
the operands in that order encode to the instruction's word, and the word is `w`. -/
def Written (i : Instr) (mnemonic : String) (operands : List Nat) (op : BitVec 5) (fmt : Format) (w : Nat) : Prop :=
  Asm.opcodeOfMnemonic mnemonic.toList = some op ∧ formatOf op = some fmt ∧
    encodeOperands op operands = some (encode i) ∧ (encode i).toNat = w

/-- What R52's DataAddr answers for an offset. -/
def DataAddrRule (policy : OffsetOverflow) (page : Page) (offset : Nat) (answer : Option Addr) : Prop :=
  if offset ≤ 255 then ∃ a, answer = some a ∧ a.toNat = page.toNat * 256 + offset
  else
    match policy with
    | .fault => answer = none
    | .spill =>
      if page.toNat * 256 + offset ≤ 2047 then ∃ a, answer = some a ∧ a.toNat = page.toNat * 256 + offset
      else answer = none
    | .wrap => ∃ a, answer = some a ∧ a.toNat = page.toNat * 256 + offset % 256

end Sys2Proof.Machine
end

