-- ==== Sys2Proof/Certificates/Slice0/Obligations.lean ====
section
/-!
DEFINITION. The statements for the provers. Each says what the spec says of the machine; the terms they share
are in Sys2Proof/Safety.lean.
-/

open Sys2Proof Sys2Proof.Machine Sys2Proof.Asm

/-! ### Encoding -/

/-- R94: the three round trips: an instruction's word decodes to it under either policy; a legal word is the
encoding of what it decodes to; and the assembler's Encode of operands in range gives the word of the
instruction with that opcode and those operands. -/
def Obligations.EncodeDecodeRoundTrip : Prop :=
  (∀ (policy : ReservedBitsPolicy) (i : Instr), decode policy (encode i) = .instr i) ∧
  (∀ (w : Word) (i : Instr), decode .fault w = .instr i → encode i = w) ∧
  ∀ (op : BitVec 5) (fmt : Format) (operands : List Nat),
    formatOf op = some fmt → operandsFit fmt (operands.map Int.ofNat) = true →
    ∃ i, encodeOperands op operands = some (encode i) ∧ i.opcode = op ∧ i.operands = operands

/-- R85, R86: every word is an illegal-opcode word, a reserved-bits word or a legal instruction, whose operand
field is the word's with the reserved bits cleared. -/
def Obligations.DecodeClassifiesEveryWord : Prop :=
  ∀ (policy : ReservedBitsPolicy) (w : Word),
    (26 < (opcodeField w).toNat ∧ decode policy w = .illegal (opcodeField w)) ∨
    ∃ fmt, (opcodeField w).toNat ≤ 26 ∧ formatOf (opcodeField w) = some fmt ∧
      if policy = .fault ∧ operandField w &&& reservedMask fmt ≠ 0#11 then
        decode policy w = .reserved (opcodeField w) (operandField w)
      else ∃ i, decode policy w = .instr i ∧ i.opcode = opcodeField w ∧ i.format = fmt ∧
        i.field = operandField w &&& ~~~reservedMask fmt

/-- Words of the spec's own encoding vectors, one for each operand format and more, decode to their
instructions. -/
def Obligations.ListedWordsDecode : Prop :=
  ∀ policy : ReservedBitsPolicy,
    decode policy 0x9800#16 = .instr .ret ∧ decode policy 0x1053#16 = .instr (.add .r1 .r2 .r3) ∧
    decode policy 0x6029#16 = .instr (.ldi .r1 5#8) ∧ decode policy 0x6FFE#16 = .instr (.jmp 1023#10) ∧
    decode policy 0xB001#16 = .instr (.gpi .r1 0#3) ∧ decode policy 0xB848#16 = .instr (.gpo .r1 1#3) ∧
    decode policy 0xCF38#16 = .instr (.pas 7#3 .r7) ∧ decode policy 0xD005#16 = .instr (.pag .r5) ∧
    decode policy 0xA83A#16 = .instr (.sto .r0 7#3 .r2)

/-- R84: the reserved bits of each format, which the encoder leaves 0; a 1 among them faults at decode under
one policy and is as good as cleared under the other. -/
def Obligations.ReservedBitsFollowThePolicy : Prop :=
  (reservedMask .none = 0x7FF#11 ∧ reservedMask .alu = 0x600#11 ∧ reservedMask .imm8ToReg = 0x000#11 ∧
    reservedMask .imm10 = 0x001#11 ∧ reservedMask .imm3ToReg = 0x7C0#11 ∧ reservedMask .regToImm3 = 0x607#11 ∧
    reservedMask .imm3OrReg = 0x0C7#11 ∧ reservedMask .regOnly = 0x7F8#11) ∧
  (∀ i : Instr, i.field &&& reservedMask i.format = 0#11) ∧
  ∀ (s : State) (fmt : Format), s.Cycles →
    formatOf (opcodeField (s.mem.fetch16 s.pc)) = some fmt →
    operandField (s.mem.fetch16 s.pc) &&& reservedMask fmt ≠ 0#11 →
    (s.cfg.reservedBits = .fault →
      ∃ t, step s = .next t ∧ TookFault { s with ir := s.mem.fetch16 s.pc } t .reservedBits) ∧
    (s.cfg.reservedBits = .ignore →
      ∃ i, decode .fault (opcodeField (s.mem.fetch16 s.pc) ++
          (operandField (s.mem.fetch16 s.pc) &&& ~~~reservedMask fmt)) = .instr i ∧
        step s = exec i { s with ir := s.mem.fetch16 s.pc })

/-! ### The cycle -/

/-- R51: the fetched word is the byte at `2*pc` with the byte at `2*pc + 1` above it, whatever the page; the
fetch reaches every byte. -/
def Obligations.FetchReadsTwoBytesLowFirst : Prop :=
  (∀ (s : State) (page : Page), s.pc.toNat < 1024 →
    ∃ lo hi : Addr, lo.toNat = 2 * s.pc.toNat ∧ hi.toNat = 2 * s.pc.toNat + 1 ∧
      ({ s with page := page }.latch.ir).toNat = (s.readByte lo).toNat + 256 * (s.readByte hi).toNat) ∧
  ∀ a : Addr, ∃ pc : Pc, pc.toNat < 1024 ∧ (a.toNat = 2 * pc.toNat ∨ a.toNat = 2 * pc.toNat + 1)

/-- R26: when the word at the pc decodes to an instruction, a step is that instruction's meaning on the state
whose IR holds the word. -/
def Obligations.StepRunsDecodedInstruction : Prop :=
  ∀ (s : State) (i : Instr), s.Cycles → s.fetched = .instr i →
    step s = exec i { s with ir := s.mem.fetch16 s.pc }

/-- R26, R35: there is a next state exactly when the core is Running below the end of the address space (the
model's logs 4, 5 and 6); no instruction, word or operand value ends a run without one. -/
def Obligations.StepAnswersNextExactlyWhenRunning : Prop :=
  ∀ s : State, (∃ t, step s = .next t) ↔ s.Cycles

/-- R35: a Halted or Faulted core is final; that a step of it is an outcome `fault` is the model's form of
"no next cycle" (log 4). -/
def Obligations.StoppedCoreStays : Prop :=
  (∀ s : State, s.run = .halted → step s = .fault .halted) ∧
  (∀ (s : State) (reason : FaultReason), s.run = .faulted reason → step s = .fault (.faulted reason)) ∧
  ∀ (s : State) (k n : Nat), (runCycles k s).run ≠ .running → runCycles (k + n) s = runCycles k s

/-- R28: the pc never passes 1024, and a step reaches 1024 only from index 1023, by an instruction that
transfers no control, and Halts there. -/
def Obligations.EndOfAddressSpaceHalts : Prop :=
  ∀ s t : State, s.Cycles → step s = .next t →
    t.pc.toNat ≤ 1024 ∧
    (t.pc.toNat = 1024 → t.run = .halted ∧ s.pc.toNat = 1023 ∧
      ∀ target, s.fetched ≠ .instr (.jmp target) ∧ s.fetched ≠ .instr (.cal target))

/-- R37: IR is written before it is read, so its value makes no difference to a step; after a step it holds
the word the step fetched. -/
def Obligations.InstructionRegisterIsNeverRead : Prop :=
  (∀ (s : State) (w : Word), step { s with ir := w } = step s) ∧
  ∀ s t : State, step s = .next t → t.ir = s.mem.fetch16 s.pc

/-! ### Invariants, reset and boot -/

/-- The invariant holds at reset. -/
def Obligations.InvHoldsAtReset : Prop := State.reset.Inv

/-- The invariant is kept by every step, from every state that has it. -/
def Obligations.StepKeepsInv : Prop := ∀ s t : State, s.Inv → step s = .next t → t.Inv

/-- R40, R61, R300, R301: starting with an image of at most 2048 bytes gives the reset state with memory holding
the image and 0 beyond it; a longer image is refused. The parameters and the host's answers are the ones given
(log 1, log 2). -/
def Obligations.BootLoadsImage : Prop :=
  ∀ (cfg : Config) (host : HostInput) (image : List Byte),
    (image.length ≤ 2048 → ∃ s, State.boot cfg host image = some s ∧ s.Inv ∧
      s.run = .running ∧ s.pc = 0#11 ∧ (∀ r, s.readReg r = 0#8) ∧ s.carry = false ∧ s.zero = false ∧
      s.page = 0#3 ∧ (∀ i : Fin 16, s.stack[i] = 0#10) ∧ s.trace = [] ∧ s.cfg = cfg ∧ s.host = host ∧
      (∀ a : Addr, a.toNat < image.length → some (s.readByte a) = image[a.toNat]?) ∧
      ∀ a : Addr, image.length ≤ a.toNat → s.readByte a = 0#8) ∧
    (2048 < image.length → State.boot cfg host image = none)

/-- R40: the values the spec gives for reset, with the empty image. IR, `cfg` and `host` are not spoken of:
their values at reset are the model's (logs 1 to 3). -/
def Obligations.ResetState : Prop :=
  State.reset.run = .running ∧ State.reset.pc = 0#11 ∧ (∀ r, State.reset.readReg r = 0#8) ∧
  State.reset.carry = false ∧ State.reset.zero = false ∧ State.reset.page = 0#3 ∧
  (∀ i : Fin 16, State.reset.stack[i] = 0#10) ∧ (∀ a, State.reset.readByte a = 0#8) ∧ State.reset.trace = []

/-- A run that began with an image keeps the invariant (its canonical form of memory is log 7's), so a core
still Running has its pc below 1024. -/
def Obligations.BootedRunNeverLosesItsPc : Prop :=
  ∀ (cfg : Config) (host : HostInput) (image : List Byte) (s : State) (k : Nat),
    State.boot cfg host image = some s →
    (runCycles k s).Inv ∧ ((runCycles k s).run = .running → (runCycles k s).Cycles)

/-- R200, R28: from a Running core whose memory is all zero the run is NOPs up to the end of the address
space, where it Halts; it never faults. -/
def Obligations.ZeroMemoryRunsToTheEnd : Prop :=
  ∀ s : State, s.Cycles → (∀ a, s.readByte a = 0#8) →
    (runCycles (1024 - s.pc.toNat) s).ending = some .endOfAddressSpace ∧
    (∀ r, (runCycles (1024 - s.pc.toNat) s).readReg r = s.readReg r) ∧ s.Safe

/-! ### Faults -/

/-- R83, R271: an illegal opcode faults at decode, and only the run state and IR change. -/
def Obligations.IllegalOpcodeFaults : Prop :=
  ∀ s : State, s.Cycles → 26 < (opcodeField (s.mem.fetch16 s.pc)).toNat →
    ∃ t, step s = .next t ∧ TookFault { s with ir := s.mem.fetch16 s.pc } t .illegalOpcode

/-- R271: whatever the fault, the pc, registers, flags, page, stack, memory and trace stay as they were before
the faulting cycle, IR holds the faulting word, and no cycle follows. -/
def Obligations.FaultsArePrecise : Prop :=
  ∀ (s t : State) (reason : FaultReason), s.Cycles → step s = .next t → t.run = .faulted reason →
    TookFault { s with ir := s.mem.fetch16 s.pc } t reason ∧ ∀ u, step t ≠ .next u

/-- R270: each fault is raised in exactly its case, records the pc and the word of the faulting instruction, and
has the spec's number. -/
def Obligations.FaultsInExactlyTheseCases : Prop :=
  (FaultReason.code .illegalOpcode = 1 ∧ FaultReason.code .reservedBits = 2 ∧
    FaultReason.code .dataAddressOutOfRange = 3 ∧ FaultReason.code .pageOutOfRange = 4) ∧
  ∀ s t : State, s.Cycles → step s = .next t →
    (t.run = .faulted .illegalOpcode ↔ 26 < (opcodeField (s.mem.fetch16 s.pc)).toNat) ∧
    (t.run = .faulted .reservedBits ↔ s.cfg.reservedBits = .fault ∧
      ∃ fmt, formatOf (opcodeField (s.mem.fetch16 s.pc)) = some fmt ∧
        operandField (s.mem.fetch16 s.pc) &&& reservedMask fmt ≠ 0#11) ∧
    (t.run = .faulted .dataAddressOutOfRange ↔ ∃ a imm3 c,
      (s.fetched = .instr (.rea a imm3 c) ∨ s.fetched = .instr (.sto a imm3 c)) ∧
      255 < (s.readReg a).toNat + imm3.toNat ∧
      (s.cfg.offsetOverflow = .fault ∨ s.cfg.offsetOverflow = .spill ∧
        2047 < s.page.toNat * 256 + ((s.readReg a).toNat + imm3.toNat))) ∧
    (t.run = .faulted .pageOutOfRange ↔ ∃ imm3 reg, s.fetched = .instr (.pas imm3 reg) ∧
      s.cfg.pageOverflow = .fault ∧ 7 < imm3.toNat ||| (s.readReg reg).toNat) ∧
    ∀ reason, t.run = .faulted reason → t.pc = s.pc ∧ t.ir = s.mem.fetch16 s.pc

/-! ### Who writes what -/

/-- R24's "writes" column: when an instruction gives a next state, a part of the state differs after it only
if the column names that part for it. IR, the parameters and the host's answers never differ. -/
def Obligations.OnlyTheNamedPartsChange : Prop :=
  ∀ (i : Instr) (s t : State), exec i s = .next t →
    (∀ r, t.readReg r ≠ s.readReg r → destination i = some r ∧ r ≠ .r0) ∧
    (t.carry ≠ s.carry ∨ t.zero ≠ s.zero →
      isAluOp i = true ∨ s.cfg.adiWritesFlags = true ∧ ∃ reg imm8, i = .adi reg imm8) ∧
    (t.page ≠ s.page → ∃ imm3 reg, i = .pas imm3 reg) ∧
    (t.stack ≠ s.stack → i = .ret ∨ ∃ target, i = .cal target) ∧
    (∀ b, t.readByte b ≠ s.readByte b → ∃ a imm3 c, i = .sto a imm3 c ∧ s.effectiveAddr a imm3 = some b) ∧
    (t.trace ≠ s.trace → i = .bel ∨ (∃ reg imm3, i = .gpi reg imm3) ∨ ∃ reg imm3, i = .gpo reg imm3) ∧
    (t.run = .halted → s.run = .halted ∨ i = .hlt ∨ t.pc = 1024#11) ∧
    t.ir = s.ir ∧ t.cfg = s.cfg ∧ t.host = s.host

/-- R38: a step appends at most one event, and GPI, GPO and BEL append theirs. -/
def Obligations.TraceGrowsByTheInstructionsEvent : Prop :=
  ∀ s t : State, step s = .next t →
    t.trace = s.trace ∨
    (∃ reg port v, s.fetched = .instr (.gpi reg port) ∧ s.host.answer port s.trace = some v ∧
      t.trace = s.trace ++ [.inEvent port v]) ∨
    (∃ reg port, s.fetched = .instr (.gpo reg port) ∧ t.trace = s.trace ++ [.outEvent port (s.readReg reg)]) ∨
    (s.fetched = .instr .bel ∧ t.trace = s.trace ++ [.bellEvent])

/-- R112: the nine ALU-op instructions give the same next state whatever the flags were. -/
def Obligations.AluReadsNoFlag : Prop :=
  ∀ (i : Instr) (s : State) (c z : Bool), isAluOp i = true → exec i { s with carry := c, zero := z } = exec i s

/-! ### ALU-op instructions -/

/-- ADD (R102). -/
def Obligations.AddResult : Prop :=
  ∀ (a b c : Reg) (s : State),
    Written (.add a b c) "ADD" [a.number, b.number, c.number] 2 .alu
      (0x1000 ||| a.number <<< 6 ||| b.number <<< 3 ||| c.number) ∧
    ∃ t, exec (.add a b c) s = .next t ∧
      RegWritten s t c (BitVec.ofNat 8 (((s.readReg a).toNat + (s.readReg b).toNat) % 256)) ∧
      FlagsAre t (255 < (s.readReg a).toNat + (s.readReg b).toNat)
        (((s.readReg a).toNat + (s.readReg b).toNat) % 256 = 0) ∧
      MovedOn s t ∧ KeptBut s t [.registers, .flags]

/-- SUB (R103). -/
def Obligations.SubResult : Prop :=
  ∀ (a b c : Reg) (s : State),
    Written (.sub a b c) "SUB" [a.number, b.number, c.number] 4 .alu
      (0x2000 ||| a.number <<< 6 ||| b.number <<< 3 ||| c.number) ∧
    ∃ t, exec (.sub a b c) s = .next t ∧
      RegWritten s t c (BitVec.ofNat 8 (((s.readReg a).toNat + 256 - (s.readReg b).toNat) % 256)) ∧
      FlagsAre t (255 < (s.readReg a).toNat + 256 - (s.readReg b).toNat)
        (((s.readReg a).toNat + 256 - (s.readReg b).toNat) % 256 = 0) ∧
      FlagsAre t ((s.readReg b).toNat ≤ (s.readReg a).toNat) (s.readReg a = s.readReg b) ∧
      MovedOn s t ∧ KeptBut s t [.registers, .flags]

/-- XOR, with the magnitude-compare carry (R104). -/
def Obligations.XorResult : Prop :=
  ∀ (a b c : Reg) (s : State),
    Written (.xor a b c) "XOR" [a.number, b.number, c.number] 5 .alu
      (0x2800 ||| a.number <<< 6 ||| b.number <<< 3 ||| c.number) ∧
    ∃ t, exec (.xor a b c) s = .next t ∧
      RegWritten s t c (s.readReg a ^^^ s.readReg b) ∧
      FlagsAre t ((s.readReg b).toNat < (s.readReg a).toNat) (s.readReg a = s.readReg b) ∧
      MovedOn s t ∧ KeptBut s t [.registers, .flags]

/-- XNO, with ADD's carry (R105). -/
def Obligations.XnoResult : Prop :=
  ∀ (a b c : Reg) (s : State),
    Written (.xno a b c) "XNO" [a.number, b.number, c.number] 6 .alu
      (0x3000 ||| a.number <<< 6 ||| b.number <<< 3 ||| c.number) ∧
    ∃ t, exec (.xno a b c) s = .next t ∧
      RegWritten s t c (~~~(s.readReg a ^^^ s.readReg b)) ∧
      FlagsAre t (255 < (s.readReg a).toNat + (s.readReg b).toNat) (s.readReg a ^^^ s.readReg b = 0xFF#8) ∧
      MovedOn s t ∧ KeptBut s t [.registers, .flags]

/-- IOR (R106). -/
def Obligations.IorResult : Prop :=
  ∀ (a b c : Reg) (s : State),
    Written (.ior a b c) "IOR" [a.number, b.number, c.number] 7 .alu
      (0x3800 ||| a.number <<< 6 ||| b.number <<< 3 ||| c.number) ∧
    ∃ t, exec (.ior a b c) s = .next t ∧
      RegWritten s t c (s.readReg a ||| s.readReg b) ∧
      FlagsAre t False (s.readReg a = 0#8 ∧ s.readReg b = 0#8) ∧
      MovedOn s t ∧ KeptBut s t [.registers, .flags]

/-- NOR (R107). -/
def Obligations.NorResult : Prop :=
  ∀ (a b c : Reg) (s : State),
    Written (.nor a b c) "NOR" [a.number, b.number, c.number] 8 .alu
      (0x4000 ||| a.number <<< 6 ||| b.number <<< 3 ||| c.number) ∧
    ∃ t, exec (.nor a b c) s = .next t ∧
      RegWritten s t c (~~~(s.readReg a ||| s.readReg b)) ∧
      FlagsAre t False (s.readReg a ||| s.readReg b = 0xFF#8) ∧
      MovedOn s t ∧ KeptBut s t [.registers, .flags]

/-- AND (R108). -/
def Obligations.AndResult : Prop :=
  ∀ (a b c : Reg) (s : State),
    Written (.and a b c) "AND" [a.number, b.number, c.number] 9 .alu
      (0x4800 ||| a.number <<< 6 ||| b.number <<< 3 ||| c.number) ∧
    ∃ t, exec (.and a b c) s = .next t ∧
      RegWritten s t c (s.readReg a &&& s.readReg b) ∧
      FlagsAre t False (s.readReg a &&& s.readReg b = 0#8) ∧
      MovedOn s t ∧ KeptBut s t [.registers, .flags]

/-- NAN, `(~a) & (~b)`, which is NOR on every pair of operands (R109). -/
def Obligations.NanResult : Prop :=
  ∀ (a b c : Reg) (s : State),
    Written (.nan a b c) "NAN" [a.number, b.number, c.number] 10 .alu
      (0x5000 ||| a.number <<< 6 ||| b.number <<< 3 ||| c.number) ∧
    (∃ t, exec (.nan a b c) s = .next t ∧
      RegWritten s t c (~~~s.readReg a &&& ~~~s.readReg b) ∧
      FlagsAre t False (s.readReg a ||| s.readReg b = 0xFF#8) ∧
      MovedOn s t ∧ KeptBut s t [.registers, .flags]) ∧
    exec (.nan a b c) s = exec (.nor a b c) s

/-- RSH, add then shift right by one, and its shorthand (R110). -/
def Obligations.RshResult : Prop :=
  ∀ (a b c : Reg) (s : State),
    Written (.rsh a b c) "RSH" [a.number, b.number, c.number] 11 .alu
      (0x5800 ||| a.number <<< 6 ||| b.number <<< 3 ||| c.number) ∧
    (∀ x y : Int, expandShorthand 11#5 [x, y] = [x, 0, y]) ∧
    ∃ t, exec (.rsh a b c) s = .next t ∧
      RegWritten s t c (BitVec.ofNat 8 (((s.readReg a).toNat + (s.readReg b).toNat) % 256 / 2)) ∧
      FlagsAre t (255 < (s.readReg a).toNat + (s.readReg b).toNat)
        (((s.readReg a).toNat + (s.readReg b).toNat) % 256 / 2 = 0) ∧
      MovedOn s t ∧ KeptBut s t [.registers, .flags]

/-! ### Immediate instructions -/

/-- ADI (R140), with the flags under either value of ADI_WRITES_FLAGS. -/
def Obligations.AdiResult : Prop :=
  ∀ (reg : Reg) (imm8 : BitVec 8) (s : State),
    Written (.adi reg imm8) "ADI" [reg.number, imm8.toNat] 3 .imm8ToReg
      (0x1800 ||| imm8.toNat <<< 3 ||| reg.number) ∧
    ∃ t, exec (.adi reg imm8) s = .next t ∧
      RegWritten s t reg (BitVec.ofNat 8 (((s.readReg reg).toNat + imm8.toNat) % 256)) ∧
      (if s.cfg.adiWritesFlags then
        FlagsAre t (255 < (s.readReg reg).toNat + imm8.toNat) (((s.readReg reg).toNat + imm8.toNat) % 256 = 0)
      else Part.Kept s t .flags) ∧
      MovedOn s t ∧ KeptBut s t [.registers, .flags]

/-- LDI (R141). -/
def Obligations.LdiResult : Prop :=
  ∀ (reg : Reg) (imm8 : BitVec 8) (s : State),
    Written (.ldi reg imm8) "LDI" [reg.number, imm8.toNat] 12 .imm8ToReg
      (0x6000 ||| imm8.toNat <<< 3 ||| reg.number) ∧
    ∃ t, exec (.ldi reg imm8) s = .next t ∧ RegWritten s t reg imm8 ∧ MovedOn s t ∧ KeptBut s t [.registers]

/-! ### Control transfer -/

/-- JMP (R151). -/
def Obligations.JmpResult : Prop :=
  ∀ (imm10 : BitVec 10) (s : State),
    Written (.jmp imm10) "JMP" [imm10.toNat] 13 .imm10 (0x6800 ||| imm10.toNat <<< 1) ∧
    ∃ t, exec (.jmp imm10) s = .next t ∧ WentTo s t imm10 ∧ KeptBut s t []

/-- BEQ, BNE, BGT and BLT (R152 to R155): each goes to its target exactly under its condition, and else moves
on. -/
def Obligations.ConditionalBranchResults : Prop :=
  ∀ (imm10 : BitVec 10) (s : State),
    (Written (.beq imm10) "BEQ" [imm10.toNat] 14 .imm10 (0x7000 ||| imm10.toNat <<< 1) ∧
      ∃ t, exec (.beq imm10) s = .next t ∧ KeptBut s t [] ∧
        if s.zero = true then WentTo s t imm10 else MovedOn s t) ∧
    (Written (.bne imm10) "BNE" [imm10.toNat] 15 .imm10 (0x7800 ||| imm10.toNat <<< 1) ∧
      ∃ t, exec (.bne imm10) s = .next t ∧ KeptBut s t [] ∧
        if s.zero = false then WentTo s t imm10 else MovedOn s t) ∧
    (Written (.bgt imm10) "BGT" [imm10.toNat] 16 .imm10 (0x8000 ||| imm10.toNat <<< 1) ∧
      ∃ t, exec (.bgt imm10) s = .next t ∧ KeptBut s t [] ∧
        if s.carry = true then WentTo s t imm10 else MovedOn s t) ∧
    (Written (.blt imm10) "BLT" [imm10.toNat] 17 .imm10 (0x8800 ||| imm10.toNat <<< 1) ∧
      ∃ t, exec (.blt imm10) s = .next t ∧ KeptBut s t [] ∧
        if s.carry = false then WentTo s t imm10 else MovedOn s t)

/-- CAL (R156): `pc + 1`, masked to 10 bits, is pushed; the oldest entry is lost in silence. -/
def Obligations.CalResult : Prop :=
  ∀ (imm10 : BitVec 10) (s : State),
    Written (.cal imm10) "CAL" [imm10.toNat] 18 .imm10 (0x9000 ||| imm10.toNat <<< 1) ∧
    ∃ t, exec (.cal imm10) s = .next t ∧ WentTo s t imm10 ∧
      (t.stack[0]).toNat = (s.pc.toNat + 1) % 1024 ∧
      (∀ (i : Nat) (h : i < 15), t.stack[i + 1] = s.stack[i]) ∧ KeptBut s t [.stack]

/-- RET (R157): nothing but the pc's move on a stack of zeros; else a pop and a jump, also to a popped 0. -/
def Obligations.RetResult : Prop :=
  ∀ s : State,
    Written .ret "RET" [] 19 .none 0x9800 ∧
    ∃ t, exec .ret s = .next t ∧
      if ∀ i : Fin 16, s.stack[i] = 0#10 then MovedOn s t ∧ KeptBut s t []
      else WentTo s t s.stack[0] ∧ (∀ (i : Nat) (h : i < 15), t.stack[i] = s.stack[i + 1]) ∧
        t.stack[15] = 0#10 ∧ KeptBut s t [.stack]

/-- R304: a CAL followed at once by a RET returns to the instruction after the CAL, with the stack as it was
but for the entry the CAL dropped, and the run state as it was. -/
def Obligations.CallThenReturn : Prop :=
  ∀ (imm10 : BitVec 10) (s : State), s.pc.toNat < 1023 →
    ∃ t u, exec (.cal imm10) s = .next t ∧ exec .ret t = .next u ∧
      u.pc.toNat = s.pc.toNat + 1 ∧ u.run = s.run ∧ (∀ (i : Nat) (h : i < 15), u.stack[i] = s.stack[i]) ∧ u.stack[15] = 0#10 ∧
      KeptBut s u [.stack]

/-- R34, R156: after any number of pushes, at least 16, the stack holds the last 16, newest on top. -/
def Obligations.StackHoldsTheLastSixteen : Prop :=
  ∀ (stk : CallStack) (vs : List Index), 16 ≤ vs.length →
    (vs.foldl CallStack.push stk).toList = vs.reverse.take 16

/-! ### Memory and page -/

/-- REA (R180): the byte at the effective address, or the fault. -/
def Obligations.ReaResult : Prop :=
  ∀ (a : Reg) (imm3 : BitVec 3) (c : Reg) (s : State),
    Written (.rea a imm3 c) "REA" [a.number, imm3.toNat, c.number] 20 .alu
      (0xA000 ||| a.number <<< 6 ||| imm3.toNat <<< 3 ||| c.number) ∧
    DataAddrRule s.cfg.offsetOverflow s.page ((s.readReg a).toNat + imm3.toNat) (s.effectiveAddr a imm3) ∧
    (∀ addr, s.effectiveAddr a imm3 = some addr →
      ∃ t, exec (.rea a imm3 c) s = .next t ∧ RegWritten s t c (s.readByte addr) ∧ MovedOn s t ∧
        KeptBut s t [.registers]) ∧
    (s.effectiveAddr a imm3 = none →
      ∃ t, exec (.rea a imm3 c) s = .next t ∧ TookFault s t .dataAddressOutOfRange)

/-- STO (R181): the byte at the effective address takes the register's value, or the fault. Memory is in its
canonical form, which `StepKeepsInv` keeps. -/
def Obligations.StoResult : Prop :=
  ∀ (a : Reg) (imm3 : BitVec 3) (c : Reg) (s : State), s.mem.wf →
    Written (.sto a imm3 c) "STO" [a.number, imm3.toNat, c.number] 21 .alu
      (0xA800 ||| a.number <<< 6 ||| imm3.toNat <<< 3 ||| c.number) ∧
    DataAddrRule s.cfg.offsetOverflow s.page ((s.readReg a).toNat + imm3.toNat) (s.effectiveAddr a imm3) ∧
    (∀ addr, s.effectiveAddr a imm3 = some addr →
      ∃ t, exec (.sto a imm3 c) s = .next t ∧ t.readByte addr = s.readReg c ∧
        (∀ b, b ≠ addr → t.readByte b = s.readByte b) ∧ MovedOn s t ∧ KeptBut s t [.memory]) ∧
    (s.effectiveAddr a imm3 = none →
      ∃ t, exec (.sto a imm3 c) s = .next t ∧ TookFault s t .dataAddressOutOfRange)

/-- PAS, with its shorthand (R182): the OR, as the page if it fits, else by PAGE_OVERFLOW; no fetch looks at the
page. -/
def Obligations.PasResult : Prop :=
  ∀ (imm3 : BitVec 3) (reg : Reg) (s : State),
    Written (.pas imm3 reg) "PAS" [imm3.toNat, reg.number] 25 .imm3OrReg
      (0xC800 ||| imm3.toNat <<< 8 ||| reg.number <<< 3) ∧
    (∀ x : Int, expandShorthand 25#5 [x] = [0, x]) ∧
    (∀ page : Page, { s with page := page }.latch.ir = s.latch.ir) ∧
    ∃ t, exec (.pas imm3 reg) s = .next t ∧
      if imm3.toNat ||| (s.readReg reg).toNat ≤ 7 then
        t.page.toNat = imm3.toNat ||| (s.readReg reg).toNat ∧ MovedOn s t ∧ KeptBut s t [.page]
      else
        match s.cfg.pageOverflow with
        | .fault => TookFault s t .pageOutOfRange
        | .mask => t.page.toNat = (imm3.toNat ||| (s.readReg reg).toNat) % 8 ∧ MovedOn s t ∧ KeptBut s t [.page]

/-- PAG (R183). -/
def Obligations.PagResult : Prop :=
  ∀ (reg : Reg) (s : State),
    Written (.pag reg) "PAG" [reg.number] 26 .regOnly (0xD000 ||| reg.number) ∧
    ∃ t, exec (.pag reg) s = .next t ∧ RegWritten s t reg (BitVec.ofNat 8 s.page.toNat) ∧ MovedOn s t ∧
      KeptBut s t [.registers]

/-- R65: a store to a byte of the next instruction's word is in the word the next fetch reads, and the other
byte of that word is as before. -/
def Obligations.StoreIsSeenByTheNextFetch : Prop :=
  ∀ (a : Reg) (imm3 : BitVec 3) (c : Reg) (s : State) (addr : Addr),
    s.mem.wf → s.effectiveAddr a imm3 = some addr →
    ∃ t, exec (.sto a imm3 c) s = .next t ∧
      (addr = lowByteAddr t.pc →
        t.latch.ir = wordOfBytes (s.readReg c) (s.readByte (highByteAddr t.pc))) ∧
      (addr = highByteAddr t.pc →
        t.latch.ir = wordOfBytes (s.readByte (lowByteAddr t.pc)) (s.readReg c))

/-! ### System and I/O -/

/-- NOP (R200). -/
def Obligations.NopResult : Prop :=
  ∀ s : State, Written .nop "NOP" [] 0 .none 0x0000 ∧
    ∃ t, exec .nop s = .next t ∧ MovedOn s t ∧ KeptBut s t []

/-- HLT (R201): Halted for good, the pc at its own index. -/
def Obligations.HltResult : Prop :=
  ∀ s : State, Written .hlt "HLT" [] 1 .none 0x0800 ∧
    ∃ t, exec .hlt s = .next t ∧ t.run = .halted ∧ t.pc = s.pc ∧ KeptBut s t [] ∧ ∀ u, step t ≠ .next u

/-- GPI (R202, R279): one byte taken from the host, or, while there is none, the state as it is. The host as
data of the state, and the wait as a step that changes nothing, are the model's (logs 2 and 6). -/
def Obligations.GpiResult : Prop :=
  ∀ (reg : Reg) (imm3 : BitVec 3) (s : State),
    Written (.gpi reg imm3) "GPI" [reg.number, imm3.toNat] 22 .imm3ToReg
      (0xB000 ||| imm3.toNat <<< 3 ||| reg.number) ∧
    (∀ v, s.host.answer imm3 s.trace = some v →
      ∃ t, exec (.gpi reg imm3) s = .next t ∧ t.trace = s.trace ++ [.inEvent imm3 v] ∧ RegWritten s t reg v ∧
        MovedOn s t ∧ KeptBut s t [.registers, .trace]) ∧
    (s.host.answer imm3 s.trace = none → exec (.gpi reg imm3) s = .next s)

/-- R279: a GPI the host never answers is a stuck state: however many cycles are tried, the core stays
Running in it and nothing but IR, which holds the GPI, is different from before. That each try is a step is the
model's (log 6). -/
def Obligations.UnansweredInputIsStuck : Prop :=
  ∀ (s : State) (reg : Reg) (imm3 : BitVec 3) (k : Nat), s.Cycles → s.fetched = .instr (.gpi reg imm3) →
    s.host.answer imm3 s.trace = none → runCycles (k + 1) s = { s with ir := s.mem.fetch16 s.pc }

/-- R279 with the simplest oracle: each GPI uses up exactly one byte of the list, in order, whatever the port
(log 2). -/
def Obligations.StreamInputIsUsedInOrder : Prop :=
  ∀ (s : State) (bytes : List Byte) (reg : Reg) (imm3 : BitVec 3), s.host = .stream bytes →
    inputsTaken s.trace < bytes.length →
    ∃ t v, exec (.gpi reg imm3) s = .next t ∧ bytes[inputsTaken s.trace]? = some v ∧ RegWritten s t reg v ∧
      inputsTaken t.trace = inputsTaken s.trace + 1 ∧
      ∀ port, t.host.answer port t.trace = bytes[inputsTaken s.trace + 1]?

/-- GPO (R203). -/
def Obligations.GpoResult : Prop :=
  ∀ (reg : Reg) (imm3 : BitVec 3) (s : State),
    Written (.gpo reg imm3) "GPO" [reg.number, imm3.toNat] 23 .regToImm3
      (0xB800 ||| reg.number <<< 6 ||| imm3.toNat <<< 3) ∧
    ∃ t, exec (.gpo reg imm3) s = .next t ∧ t.trace = s.trace ++ [.outEvent imm3 (s.readReg reg)] ∧
      MovedOn s t ∧ KeptBut s t [.trace]

/-- BEL (R204). -/
def Obligations.BelResult : Prop :=
  ∀ s : State, Written .bel "BEL" [] 24 .none 0xC000 ∧
    ∃ t, exec .bel s = .next t ∧ t.trace = s.trace ++ [.bellEvent] ∧ MovedOn s t ∧ KeptBut s t [.trace]

/-! ### The assembler -/

/-- R90, R237, R83, R84: what the assembler emits is the encodings of instructions, those that pass 2 resolved
and in program order, one for each line it recorded as one, then one byte for each variable in declaration
order, the one it was declared with, at most 2048 bytes in all; so it emits no illegal opcode and no reserved
bit. -/
def Obligations.AssembledImageIsEncodedInstructions : Prop :=
  ∀ (cfg : AsmConfig) (lines : List Text) (bytes : List Byte), assemble cfg lines = .image bytes →
    ∃ (program : List Instr) (data : List Byte),
      bytes = program.flatMap encodeBytes ++ data ∧ bytes.length ≤ 2048 ∧
      (passOne cfg lines).records.filterMap (resolveRecord (passOne cfg lines).resolvedSymbols) =
        program.map (fun i => .ok ⟨i.opcode, i.operands⟩) ∧
      program.length = (passOne cfg lines).instructionCounter ∧
      data.length = (passOne cfg lines).varOrder.length ∧
      ∀ (i : Nat) (name : Text), (passOne cfg lines).varOrder[i]? = some name →
        ∃ v, data[i]? = some v ∧ (name, v) ∈ (passOne cfg lines).varValues

/-- R93: the encoder's internal errors cannot occur. -/
def Obligations.EncoderNeverAborts : Prop :=
  ∀ (cfg : AsmConfig) (lines : List Text), assemble cfg lines ≠ .internalError

/-- R220, R237: assembling that fails counts at least one error, and one error in pass 1 is enough to emit
nothing. -/
def Obligations.AssemblerFailsClosed : Prop :=
  ∀ (cfg : AsmConfig) (lines : List Text),
    (∀ n, assemble cfg lines = .failed n → 1 ≤ n) ∧
    (0 < (passOne cfg lines).errors → ∃ n, assemble cfg lines = .failed n)

/-- R228: no name is ever in the symbol table twice, so none is redefined; the seeded names are reserved. -/
def Obligations.NamesAreNeverRedefined : Prop :=
  ∀ (cfg : AsmConfig) (lines : List Text),
    ((passOne cfg lines).symbols.map Symbol.name).Nodup ∧ seededSymbols cfg <+: (passOne cfg lines).symbols

/-- R232: the i-th variable's name stands for the byte address `(programCount << 1) + i`. -/
def Obligations.VariableAddresses : Prop :=
  ∀ (cfg : AsmConfig) (lines : List Text) (i : Nat) (name : Text),
    (passOne cfg lines).varOrder[i]? = some name →
    findSymbol (passOne cfg lines).resolvedSymbols name =
      some ⟨name, .dataVariable, .value ((passOne cfg lines).instructionCounter <<< 1 + i)⟩

/-- R234: `RSH a c` resolves as `RSH a 0 c` and `PAS b` as `PAS 0 b`, and no other operand list is changed. -/
def Obligations.ShorthandsResolveAsTheirFullForms : Prop :=
  (∀ (symbols : List Symbol) (r : Record) (m a c : Text), r.opcode = some 11 → r.tokens = [m, a, c] →
    resolveRecord symbols r = resolveRecord symbols { r with tokens := [m, a, ['0'], c] }) ∧
  (∀ (symbols : List Symbol) (r : Record) (m b : Text), r.opcode = some 25 → r.tokens = [m, b] →
    resolveRecord symbols r = resolveRecord symbols { r with tokens := [m, ['0'], b] }) ∧
  ∀ (op : BitVec 5) (vals : List Int), ¬(op = 11 ∧ vals.length = 2) → ¬(op = 25 ∧ vals.length = 1) →
    expandShorthand op vals = vals

/-- R239: a line that pass 1 finds in error defines no name, advances no counter and adds no variable. That it
adds exactly one error is the model's choice (log 13), since R238 leaves the count open. -/
def Obligations.InvalidLineChangesNothingElse : Prop :=
  ∀ (s : Session) (line : Text), (classifyLine s line).errors ≠ s.errors →
    (classifyLine s line).errors = s.errors + 1 ∧ (classifyLine s line).symbols = s.symbols ∧
    (classifyLine s line).varOrder = s.varOrder ∧ (classifyLine s line).varValues = s.varValues ∧
    (classifyLine s line).instructionCounter = s.instructionCounter

/-- R222: a comment added to a line, anywhere in a program, changes nothing of the result. -/
def Obligations.CommentsDoNotMatter : Prop :=
  ∀ (cfg : AsmConfig) (before after : List Text) (line comment : Text),
    assemble cfg (before ++ (line ++ ';' :: comment) :: after) = assemble cfg (before ++ line :: after)

/-! ### A host that always answers -/

/-- R279: where the host has an answer to every port and trace, no cycle of a run is a wait: each GPI that a
cycle fetches takes the host's byte. A repeated list of bytes is such a host (log 2). -/
def Obligations.AlwaysAnsweringHostNeverBlocks : Prop :=
  (∀ (bytes : List Byte) (port : Port) (trace : List Event), bytes ≠ [] →
    ((HostInput.repeating bytes).answer port trace).isSome = true) ∧
  ∀ (s : State) (k : Nat), (∀ port trace, (s.host.answer port trace).isSome = true) →
    (runCycles k s).waitsForInput = false ∧
    ∀ (t : State) (reg : Reg) (imm3 : BitVec 3), (runCycles k s).fetched = .instr (.gpi reg imm3) →
      step (runCycles k s) = .next t →
      ∃ v, s.host.answer imm3 (runCycles k s).trace = some v ∧
        t.trace = (runCycles k s).trace ++ [.inEvent imm3 v] ∧ RegWritten (runCycles k s) t reg v ∧
        MovedOn (runCycles k s) t
end

