-- ==== Sys2Proof/Laws/PerInstr.lean ====
section
/-!
SUPPORT. Facts about every instruction as syntax, one lemma per constructor.
-/

namespace Sys2Proof.Laws.Encodes

/-- The opcode map gives an instruction's opcode its format, and the encoder leaves the format's reserved bits
0 (R80, R84). -/
def Statement (i : Instr) : Prop :=
  formatOf i.opcode = some i.format ∧ i.field &&& reservedMask i.format = 0#11

theorem layoutAlu_reserved (a b c : BitVec 3) : layoutAlu a b c &&& 0x600#11 = 0#11 := by
  revert a b c; decide +kernel

theorem layoutImm8ToReg_reserved (i : BitVec 8) (r : BitVec 3) : layoutImm8ToReg i r &&& 0x000#11 = 0#11 := by
  simp

theorem layoutImm10_reserved (t : BitVec 10) : layoutImm10 t &&& 0x001#11 = 0#11 := by
  revert t; decide +kernel

theorem layoutImm3ToReg_reserved (i r : BitVec 3) : layoutImm3ToReg i r &&& 0x7C0#11 = 0#11 := by
  revert i r; decide +kernel

theorem layoutRegToImm3_reserved (r i : BitVec 3) : layoutRegToImm3 r i &&& 0x607#11 = 0#11 := by
  revert r i; decide +kernel

theorem layoutImm3OrReg_reserved (i r : BitVec 3) : layoutImm3OrReg i r &&& 0x0C7#11 = 0#11 := by
  revert i r; decide +kernel

theorem layoutRegOnly_reserved (r : BitVec 3) : layoutRegOnly r &&& 0x7F8#11 = 0#11 := by
  revert r; decide +kernel

theorem nop : Statement (.nop) := ⟨rfl, by decide⟩

theorem hlt : Statement (.hlt) := ⟨rfl, by decide⟩

theorem add (a : Reg) (b : Reg) (c : Reg) : Statement (.add a b c) := ⟨rfl, layoutAlu_reserved _ _ _⟩

theorem adi (reg : Reg) (imm8 : BitVec 8) : Statement (.adi reg imm8) := ⟨rfl, layoutImm8ToReg_reserved _ _⟩

theorem sub (a : Reg) (b : Reg) (c : Reg) : Statement (.sub a b c) := ⟨rfl, layoutAlu_reserved _ _ _⟩

theorem xor (a : Reg) (b : Reg) (c : Reg) : Statement (.xor a b c) := ⟨rfl, layoutAlu_reserved _ _ _⟩

theorem xno (a : Reg) (b : Reg) (c : Reg) : Statement (.xno a b c) := ⟨rfl, layoutAlu_reserved _ _ _⟩

theorem ior (a : Reg) (b : Reg) (c : Reg) : Statement (.ior a b c) := ⟨rfl, layoutAlu_reserved _ _ _⟩

theorem nor (a : Reg) (b : Reg) (c : Reg) : Statement (.nor a b c) := ⟨rfl, layoutAlu_reserved _ _ _⟩

theorem and (a : Reg) (b : Reg) (c : Reg) : Statement (.and a b c) := ⟨rfl, layoutAlu_reserved _ _ _⟩

theorem nan (a : Reg) (b : Reg) (c : Reg) : Statement (.nan a b c) := ⟨rfl, layoutAlu_reserved _ _ _⟩

theorem rsh (a : Reg) (b : Reg) (c : Reg) : Statement (.rsh a b c) := ⟨rfl, layoutAlu_reserved _ _ _⟩

theorem ldi (reg : Reg) (imm8 : BitVec 8) : Statement (.ldi reg imm8) := ⟨rfl, layoutImm8ToReg_reserved _ _⟩

theorem jmp (imm10 : BitVec 10) : Statement (.jmp imm10) := ⟨rfl, layoutImm10_reserved _⟩

theorem beq (imm10 : BitVec 10) : Statement (.beq imm10) := ⟨rfl, layoutImm10_reserved _⟩

theorem bne (imm10 : BitVec 10) : Statement (.bne imm10) := ⟨rfl, layoutImm10_reserved _⟩

theorem bgt (imm10 : BitVec 10) : Statement (.bgt imm10) := ⟨rfl, layoutImm10_reserved _⟩

theorem blt (imm10 : BitVec 10) : Statement (.blt imm10) := ⟨rfl, layoutImm10_reserved _⟩

theorem cal (imm10 : BitVec 10) : Statement (.cal imm10) := ⟨rfl, layoutImm10_reserved _⟩

theorem ret : Statement (.ret) := ⟨rfl, by decide⟩

theorem rea (a : Reg) (imm3 : BitVec 3) (c : Reg) : Statement (.rea a imm3 c) := ⟨rfl, layoutAlu_reserved _ _ _⟩

theorem sto (a : Reg) (imm3 : BitVec 3) (c : Reg) : Statement (.sto a imm3 c) := ⟨rfl, layoutAlu_reserved _ _ _⟩

theorem gpi (reg : Reg) (imm3 : BitVec 3) : Statement (.gpi reg imm3) := ⟨rfl, layoutImm3ToReg_reserved _ _⟩

theorem gpo (reg : Reg) (imm3 : BitVec 3) : Statement (.gpo reg imm3) := ⟨rfl, layoutRegToImm3_reserved _ _⟩

theorem bel : Statement (.bel) := ⟨rfl, by decide⟩

theorem pas (imm3 : BitVec 3) (reg : Reg) : Statement (.pas imm3 reg) := ⟨rfl, layoutImm3OrReg_reserved _ _⟩

theorem pag (reg : Reg) : Statement (.pag reg) := ⟨rfl, layoutRegOnly_reserved _⟩

end Sys2Proof.Laws.Encodes
end

