-- ==== Sys2Proof/Laws/Regs.lean ====
section
/-!
SUPPORT. The laws of the register file and of register numbers.
-/

namespace Sys2Proof

@[simp] theorem Reg.ofBits_bits (r : Reg) : Reg.ofBits r.bits = r := by cases r <;> rfl

@[simp] theorem Reg.bits_ofBits (b : BitVec 3) : (Reg.ofBits b).bits = b := by revert b; decide

namespace Machine

@[simp] theorem Regs.get_r0 (x : Regs) : x.get .r0 = 0#8 := rfl

/-- Everything a register write does, register 0 included. -/
theorem Regs.get_set (x : Regs) (c r : Reg) (v : Byte) :
    (x.set c v).get r = if r = c ∧ r ≠ .r0 then v else x.get r := by
  cases c <;> cases r <;> rfl

@[simp] theorem Regs.set_r0 (x : Regs) (v : Byte) : x.set .r0 v = x := rfl

theorem Regs.get_set_same (x : Regs) (c : Reg) (v : Byte) (h : c ≠ .r0) : (x.set c v).get c = v := by
  simp [Regs.get_set, h]

theorem Regs.get_set_other (x : Regs) (c r : Reg) (v : Byte) (h : r ≠ c) : (x.set c v).get r = x.get r := by
  simp [Regs.get_set, h]

/-- Two register files that read alike are equal. -/
theorem Regs.ext_get (x y : Regs) (h : ∀ r, x.get r = y.get r) : x = y := by
  cases x; cases y
  simpa [Regs.get] using And.intro (h .r1) <| And.intro (h .r2) <| And.intro (h .r3) <| And.intro (h .r4) <|
    And.intro (h .r5) <| And.intro (h .r6) (h .r7)

/-- Everything a register write does, on states. -/
theorem State.readReg_writeReg (s : State) (c r : Reg) (v : Byte) :
    (s.writeReg c v).readReg r = if r = c ∧ r ≠ .r0 then v else s.readReg r :=
  Regs.get_set s.regs c r v

@[simp] theorem Regs.get_zeroed (r : Reg) : Regs.zeroed.get r = 0#8 := by cases r <;> rfl

end Machine

end Sys2Proof
end

