-- ==== Sys2Proof/Laws/Decode.lean ====
section
/-!
SUPPORT. What the decoder's field readers find in the encoder's layouts.
-/

namespace Sys2Proof

/-- A bit of an opcode above an operand field. -/
theorem word_getLsbD (op : BitVec 5) (f : BitVec 11) (i : Nat) :
    BitVec.getLsbD (w := 16) (op ++ f) i = if i < 11 then f.getLsbD i else op.getLsbD (i - 11) :=
  BitVec.getLsbD_append

theorem opcodeField_append (op : BitVec 5) (f : BitVec 11) : opcodeField (op ++ f) = op := by
  simp only [opcodeField]
  ext i hi
  rw [BitVec.getElem_extractLsb', word_getLsbD, if_neg (by omega), Nat.add_sub_cancel_left,
    BitVec.getLsbD_eq_getElem]

theorem operandField_append (op : BitVec 5) (f : BitVec 11) : operandField (op ++ f) = f := by
  simp only [operandField]
  ext i hi
  rw [BitVec.getElem_extractLsb', word_getLsbD, if_pos (by omega), Nat.zero_add, BitVec.getLsbD_eq_getElem]

/-- A word is its opcode above its operand field. -/
theorem append_fields (w : Word) : opcodeField w ++ operandField w = w := by
  simp only [opcodeField, operandField]
  ext i hi
  simp only [BitVec.getElem_append, BitVec.getElem_extractLsb']
  split
  · rw [Nat.zero_add, BitVec.getLsbD_eq_getElem]
  · rw [show 11 + (i - 11) = i by omega, BitVec.getLsbD_eq_getElem]

@[simp] theorem layoutAlu_a (a b c : BitVec 3) : bits86 (layoutAlu a b c) = a := by revert a b c; decide +kernel
@[simp] theorem layoutAlu_b (a b c : BitVec 3) : bits53 (layoutAlu a b c) = b := by revert a b c; decide +kernel
@[simp] theorem layoutAlu_c (a b c : BitVec 3) : bits20 (layoutAlu a b c) = c := by revert a b c; decide +kernel

@[simp] theorem layoutImm8ToReg_imm8 (i : BitVec 8) (r : BitVec 3) : bits103 (layoutImm8ToReg i r) = i := by
  revert i r; decide +kernel
@[simp] theorem layoutImm8ToReg_reg (i : BitVec 8) (r : BitVec 3) : bits20 (layoutImm8ToReg i r) = r := by
  revert i r; decide +kernel

@[simp] theorem layoutImm10_imm10 (t : BitVec 10) : bits101 (layoutImm10 t) = t := by revert t; decide +kernel

@[simp] theorem layoutImm3ToReg_imm3 (i r : BitVec 3) : bits53 (layoutImm3ToReg i r) = i := by
  revert i r; decide +kernel
@[simp] theorem layoutImm3ToReg_reg (i r : BitVec 3) : bits20 (layoutImm3ToReg i r) = r := by
  revert i r; decide +kernel

@[simp] theorem layoutRegToImm3_reg (r i : BitVec 3) : bits86 (layoutRegToImm3 r i) = r := by
  revert r i; decide +kernel
@[simp] theorem layoutRegToImm3_imm3 (r i : BitVec 3) : bits53 (layoutRegToImm3 r i) = i := by
  revert r i; decide +kernel

@[simp] theorem layoutImm3OrReg_imm3 (i r : BitVec 3) : bits108 (layoutImm3OrReg i r) = i := by
  revert i r; decide +kernel
@[simp] theorem layoutImm3OrReg_reg (i r : BitVec 3) : bits53 (layoutImm3OrReg i r) = r := by
  revert i r; decide +kernel

@[simp] theorem layoutRegOnly_reg (r : BitVec 3) : bits20 (layoutRegOnly r) = r := by revert r; decide +kernel

end Sys2Proof
end

