-- ==== Sys2Proof/Laws/Flags.lean ====
section
/-!
SUPPORT. Small lemmas about the ALU's flags.
-/

namespace Sys2Proof.Machine

/-- An 8-bit result has no carry out. -/
@[simp] theorem carryOut_byte (r : Byte) : carryOut r.toNat = false := by
  have := r.isLt
  simp only [carryOut, decide_eq_false_iff_not]
  omega

/-- The generic flags of an 8-bit result: no carry, zero from the result. -/
@[simp] theorem fromResult_eq (r : Byte) : fromResult r = ⟨r, false, zeroOf r⟩ := by simp [fromResult]

theorem zeroOf_iff (r : Byte) : zeroOf r = true ↔ r = 0#8 := by simp [zeroOf]

/-- A complement is 0 exactly when all bits are 1. -/
theorem zeroOf_not_iff (r : Byte) : zeroOf (~~~r) = true ↔ r = 0xFF#8 := by revert r; decide

/-- De Morgan's law, which makes NAN's result NOR's (R109). -/
theorem not_and_not (x y : Byte) : ~~~x &&& ~~~y = ~~~(x ||| y) := by
  ext i hi
  simp

end Sys2Proof.Machine
end

