-- ==== Sys2Proof/Laws/Memory.lean ====
section
/-!
SUPPORT. The laws of memory: every operation keeps the canonical form; a read after a write.
-/

namespace Sys2Proof.Machine

@[simp] theorem Memory.lookup_nil (k : Nat) : Memory.lookup [] k = Memory.unlisted := rfl

theorem Memory.lookup_cons (j k : Nat) (v : Byte) (m : Memory) :
    Memory.lookup ((j, v) :: m) k = if j = k then v else Memory.lookup m k := rfl

theorem Memory.wf_nil : Memory.wf [] := by simp [Memory.wf]

/-- The canonical form, one cell at a time. -/
theorem Memory.wf_cons (j : Nat) (u : Byte) (m : Memory) :
    Memory.wf ((j, u) :: m) ↔ (∀ c ∈ m, j < c.1) ∧ j < 2048 ∧ u ≠ Memory.unlisted ∧ Memory.wf m := by
  simp only [Memory.wf, List.map_cons, List.pairwise_cons, List.mem_map, List.mem_cons]
  constructor
  · rintro ⟨⟨h1, h2⟩, h3⟩
    exact ⟨fun c hc => h1 _ ⟨c, hc, rfl⟩, (h3 _ (.inl rfl)).1, (h3 _ (.inl rfl)).2, h2, fun c hc => h3 c (.inr hc)⟩
  · rintro ⟨h1, h2, h3, h4, h5⟩
    refine ⟨⟨?_, h4⟩, ?_⟩
    · rintro _ ⟨c, hc, rfl⟩; exact h1 c hc
    · rintro c (rfl | hc)
      · exact ⟨h2, h3⟩
      · exact h5 c hc

/-- A cell of the list after an insertion is the new one or an old one. -/
theorem Memory.mem_insert (m : Memory) (k : Nat) (v : Byte) (c : Host.Cell) (h : c ∈ Memory.insert m k v) :
    c = (k, v) ∧ v ≠ Memory.unlisted ∨ c ∈ m := by
  induction m with
  | nil =>
    simp only [Memory.insert] at h
    split at h
    · cases h
    · simp_all
  | cons e m ih =>
    obtain ⟨j, u⟩ := e
    simp only [Memory.insert] at h
    split at h
    · simp only [List.mem_cons] at h
      rcases h with rfl | h
      · simp
      · rcases ih h with h | h <;> simp [h]
    · split at h
      · split at h <;> simp_all; tauto
      · split at h <;> simp_all

/-- An insertion below 2048 keeps the canonical form. -/
theorem Memory.wf_insert (m : Memory) (k : Nat) (v : Byte) (hk : k < 2048) (hm : m.wf) :
    (Memory.insert m k v).wf := by
  induction m with
  | nil =>
    simp only [Memory.insert]
    split
    · exact Memory.wf_nil
    · next h => exact (Memory.wf_cons _ _ _).2 ⟨by simp, hk, h, Memory.wf_nil⟩
  | cons e m ih =>
    obtain ⟨j, u⟩ := e
    obtain ⟨h1, h2, h3, h4⟩ := (Memory.wf_cons j u m).1 hm
    simp only [Memory.insert]
    split
    · next hlt =>
      refine (Memory.wf_cons _ _ _).2 ⟨fun c hc => ?_, h2, h3, ih h4⟩
      rcases Memory.mem_insert m k v c hc with ⟨rfl, -⟩ | hc
      · exact hlt
      · exact h1 c hc
    · split
      · next heq =>
        subst heq
        split
        · exact h4
        · next hv => exact (Memory.wf_cons _ _ _).2 ⟨h1, h2, hv, h4⟩
      · split
        · exact hm
        · next hlt hne hv =>
          refine (Memory.wf_cons _ _ _).2 ⟨?_, hk, hv, hm⟩
          intro c hc
          simp only [List.mem_cons] at hc
          rcases hc with rfl | hc
          · show k < j; omega
          · have := h1 c hc; omega

/-- A lookup below every listed key finds nothing. -/
theorem Memory.lookup_of_lt (m : Memory) (k : Nat) (h : ∀ c ∈ m, k < c.1) : Memory.lookup m k = Memory.unlisted := by
  induction m with
  | nil => rfl
  | cons e m ih =>
    obtain ⟨j, u⟩ := e
    have hj : k < j := h (j, u) (by simp)
    rw [Memory.lookup_cons, if_neg (by omega)]
    exact ih fun c hc => h c (by simp [hc])

/-- The inserted byte is found again. -/
theorem Memory.lookup_insert_same (m : Memory) (k : Nat) (v : Byte) (hm : m.wf) :
    Memory.lookup (Memory.insert m k v) k = v := by
  induction m with
  | nil =>
    simp only [Memory.insert]
    split
    · next h => simp [h]
    · simp [Memory.lookup_cons]
  | cons e m ih =>
    obtain ⟨j, u⟩ := e
    obtain ⟨h1, -, -, h4⟩ := (Memory.wf_cons j u m).1 hm
    simp only [Memory.insert]
    split
    · rw [Memory.lookup_cons, if_neg (by omega)]; exact ih h4
    · split
      · next heq =>
        subst heq
        split
        · next hv => rw [Memory.lookup_of_lt m j h1, hv]
        · simp [Memory.lookup_cons]
      · split
        · next hv =>
          rw [hv]
          refine Memory.lookup_of_lt _ _ fun c hc => ?_
          simp only [List.mem_cons] at hc
          rcases hc with rfl | hc
          · show k < j; omega
          · have := h1 c hc; omega
        · simp [Memory.lookup_cons]

/-- Every other byte is found as before. -/
theorem Memory.lookup_insert_other (m : Memory) (k k' : Nat) (v : Byte) (h : k' ≠ k) :
    Memory.lookup (Memory.insert m k v) k' = Memory.lookup m k' := by
  induction m with
  | nil =>
    simp only [Memory.insert]
    split
    · rfl
    · simp [Memory.lookup_cons, h.symm]
  | cons e m ih =>
    obtain ⟨j, u⟩ := e
    simp only [Memory.insert]
    split
    · simp [Memory.lookup_cons, ih]
    · split
      · next heq =>
        subst heq
        split <;> simp [Memory.lookup_cons, h.symm]
      · split <;> simp [Memory.lookup_cons, h.symm]

/-- A one-byte write keeps the canonical form. -/
theorem Memory.wf_write (m : Memory) (a : Addr) (v : Byte) (hm : m.wf) : (m.write a v).wf :=
  Memory.wf_insert m a.toNat v a.isLt hm

/-- A read of the byte just written. -/
theorem Memory.read_write_same (m : Memory) (a : Addr) (v : Byte) (hm : m.wf) : (m.write a v).read a = v :=
  Memory.lookup_insert_same m a.toNat v hm

/-- A read of any other byte. -/
theorem Memory.read_write_other (m : Memory) (a b : Addr) (v : Byte) (h : b ≠ a) :
    (m.write a v).read b = m.read b :=
  Memory.lookup_insert_other m a.toNat b.toNat v fun e => h (BitVec.eq_of_toNat_eq e)

/-- Placing a word keeps the canonical form. -/
theorem Memory.wf_placeWord (m : Memory) (pc : Pc) (w : Word) (hm : m.wf) : (m.placeWord pc w).wf :=
  Memory.wf_write _ _ _ (Memory.wf_write _ _ _ hm)

/-- The two byte addresses of an instruction differ. -/
theorem lowByteAddr_ne_highByteAddr (pc : Pc) : lowByteAddr pc ≠ highByteAddr pc := by
  simp only [lowByteAddr, highByteAddr]; revert pc; decide +kernel

/-- A word of its two bytes is the word. -/
theorem wordOfBytes_bytes (w : Word) : wordOfBytes (w.extractLsb' 0 8) (w.extractLsb' 8 8) = w := by
  simp only [wordOfBytes]
  ext i hi
  simp only [BitVec.getElem_append, BitVec.getElem_extractLsb']
  split
  · rw [Nat.zero_add, BitVec.getLsbD_eq_getElem]
  · rw [show 8 + (i - 8) = i by omega, BitVec.getLsbD_eq_getElem]

/-- The word placed at the pc is the one fetched there. -/
theorem Memory.fetch16_placeWord (m : Memory) (pc : Pc) (w : Word) (hm : m.wf) :
    (m.placeWord pc w).fetch16 pc = w := by
  simp only [Memory.fetch16, Memory.placeWord]
  rw [Memory.read_write_same _ _ _ (Memory.wf_write _ _ _ hm),
    Memory.read_write_other _ _ _ _ (lowByteAddr_ne_highByteAddr pc), Memory.read_write_same _ _ _ hm,
    wordOfBytes_bytes]

/-- Every byte outside the placed word reads as before. -/
theorem Memory.read_placeWord_other (m : Memory) (pc : Pc) (w : Word) (a : Addr)
    (hl : a ≠ lowByteAddr pc) (hh : a ≠ highByteAddr pc) : (m.placeWord pc w).read a = m.read a := by
  simp only [Memory.placeWord]
  rw [Memory.read_write_other _ _ _ _ hh, Memory.read_write_other _ _ _ _ hl]

/-- The keys of a loaded image. -/
theorem memoryFrom_keys (bs : List Byte) (k : Nat) (c : Host.Cell) (h : c ∈ memoryFrom k bs) :
    k ≤ c.1 ∧ c.1 < k + bs.length ∧ c.2 ≠ Memory.unlisted := by
  induction bs generalizing k with
  | nil => cases h
  | cons b bs ih =>
    simp only [memoryFrom] at h
    split at h
    · obtain ⟨h1, h2, h3⟩ := ih (k + 1) h
      exact ⟨by omega, by simp only [List.length_cons]; omega, h3⟩
    · simp only [List.mem_cons] at h
      rcases h with rfl | h
      · exact ⟨by simp, by simp, by assumption⟩
      · obtain ⟨h1, h2, h3⟩ := ih (k + 1) h
        exact ⟨by omega, by simp only [List.length_cons]; omega, h3⟩

/-- A loaded image of at most 2048 bytes is in canonical form. -/
theorem Memory.wf_memoryFrom (bs : List Byte) (k : Nat) (h : k + bs.length ≤ 2048) : (memoryFrom k bs).wf := by
  induction bs generalizing k with
  | nil => exact Memory.wf_nil
  | cons b bs ih =>
    simp only [List.length_cons] at h
    simp only [memoryFrom]
    split
    · exact ih (k + 1) (by omega)
    · next hb =>
      refine (Memory.wf_cons _ _ _).2 ⟨fun c hc => ?_, by omega, hb, ih (k + 1) (by omega)⟩
      have := memoryFrom_keys bs (k + 1) c hc
      omega

end Sys2Proof.Machine
end

