-- ==== Sys2Proof/Laws/State.lean ====
section
/-!
SUPPORT. One lemma per field per update of the state, so that no later proof unfolds a record update.
-/

namespace Sys2Proof.Machine

/-! ### writeReg -/

@[simp] theorem State.writeReg_run (s : State) (r : Reg) (v : Byte) : (s.writeReg r v).run = s.run := rfl
@[simp] theorem State.writeReg_pc (s : State) (r : Reg) (v : Byte) : (s.writeReg r v).pc = s.pc := rfl
@[simp] theorem State.writeReg_regs (s : State) (r : Reg) (v : Byte) : (s.writeReg r v).regs = s.regs.set r v := rfl
@[simp] theorem State.writeReg_carry (s : State) (r : Reg) (v : Byte) : (s.writeReg r v).carry = s.carry := rfl
@[simp] theorem State.writeReg_zero (s : State) (r : Reg) (v : Byte) : (s.writeReg r v).zero = s.zero := rfl
@[simp] theorem State.writeReg_page (s : State) (r : Reg) (v : Byte) : (s.writeReg r v).page = s.page := rfl
@[simp] theorem State.writeReg_stack (s : State) (r : Reg) (v : Byte) : (s.writeReg r v).stack = s.stack := rfl
@[simp] theorem State.writeReg_mem (s : State) (r : Reg) (v : Byte) : (s.writeReg r v).mem = s.mem := rfl
@[simp] theorem State.writeReg_ir (s : State) (r : Reg) (v : Byte) : (s.writeReg r v).ir = s.ir := rfl
@[simp] theorem State.writeReg_trace (s : State) (r : Reg) (v : Byte) : (s.writeReg r v).trace = s.trace := rfl
@[simp] theorem State.writeReg_cfg (s : State) (r : Reg) (v : Byte) : (s.writeReg r v).cfg = s.cfg := rfl
@[simp] theorem State.writeReg_host (s : State) (r : Reg) (v : Byte) : (s.writeReg r v).host = s.host := rfl

/-! ### writeFlags -/

@[simp] theorem State.writeFlags_run (s : State) (c z : Bool) : (s.writeFlags c z).run = s.run := rfl
@[simp] theorem State.writeFlags_pc (s : State) (c z : Bool) : (s.writeFlags c z).pc = s.pc := rfl
@[simp] theorem State.writeFlags_regs (s : State) (c z : Bool) : (s.writeFlags c z).regs = s.regs := rfl
@[simp] theorem State.writeFlags_carry (s : State) (c z : Bool) : (s.writeFlags c z).carry = c := rfl
@[simp] theorem State.writeFlags_zero (s : State) (c z : Bool) : (s.writeFlags c z).zero = z := rfl
@[simp] theorem State.writeFlags_page (s : State) (c z : Bool) : (s.writeFlags c z).page = s.page := rfl
@[simp] theorem State.writeFlags_stack (s : State) (c z : Bool) : (s.writeFlags c z).stack = s.stack := rfl
@[simp] theorem State.writeFlags_mem (s : State) (c z : Bool) : (s.writeFlags c z).mem = s.mem := rfl
@[simp] theorem State.writeFlags_ir (s : State) (c z : Bool) : (s.writeFlags c z).ir = s.ir := rfl
@[simp] theorem State.writeFlags_trace (s : State) (c z : Bool) : (s.writeFlags c z).trace = s.trace := rfl
@[simp] theorem State.writeFlags_cfg (s : State) (c z : Bool) : (s.writeFlags c z).cfg = s.cfg := rfl
@[simp] theorem State.writeFlags_host (s : State) (c z : Bool) : (s.writeFlags c z).host = s.host := rfl

/-! ### writeByte -/

@[simp] theorem State.writeByte_run (s : State) (a : Addr) (v : Byte) : (s.writeByte a v).run = s.run := rfl
@[simp] theorem State.writeByte_pc (s : State) (a : Addr) (v : Byte) : (s.writeByte a v).pc = s.pc := rfl
@[simp] theorem State.writeByte_regs (s : State) (a : Addr) (v : Byte) : (s.writeByte a v).regs = s.regs := rfl
@[simp] theorem State.writeByte_carry (s : State) (a : Addr) (v : Byte) : (s.writeByte a v).carry = s.carry := rfl
@[simp] theorem State.writeByte_zero (s : State) (a : Addr) (v : Byte) : (s.writeByte a v).zero = s.zero := rfl
@[simp] theorem State.writeByte_page (s : State) (a : Addr) (v : Byte) : (s.writeByte a v).page = s.page := rfl
@[simp] theorem State.writeByte_stack (s : State) (a : Addr) (v : Byte) : (s.writeByte a v).stack = s.stack := rfl
@[simp] theorem State.writeByte_mem (s : State) (a : Addr) (v : Byte) : (s.writeByte a v).mem = s.mem.write a v := rfl
@[simp] theorem State.writeByte_ir (s : State) (a : Addr) (v : Byte) : (s.writeByte a v).ir = s.ir := rfl
@[simp] theorem State.writeByte_trace (s : State) (a : Addr) (v : Byte) : (s.writeByte a v).trace = s.trace := rfl
@[simp] theorem State.writeByte_cfg (s : State) (a : Addr) (v : Byte) : (s.writeByte a v).cfg = s.cfg := rfl
@[simp] theorem State.writeByte_host (s : State) (a : Addr) (v : Byte) : (s.writeByte a v).host = s.host := rfl

/-! ### latch -/

@[simp] theorem State.latch_run (s : State) : (s.latch).run = s.run := rfl
@[simp] theorem State.latch_pc (s : State) : (s.latch).pc = s.pc := rfl
@[simp] theorem State.latch_regs (s : State) : (s.latch).regs = s.regs := rfl
@[simp] theorem State.latch_carry (s : State) : (s.latch).carry = s.carry := rfl
@[simp] theorem State.latch_zero (s : State) : (s.latch).zero = s.zero := rfl
@[simp] theorem State.latch_page (s : State) : (s.latch).page = s.page := rfl
@[simp] theorem State.latch_stack (s : State) : (s.latch).stack = s.stack := rfl
@[simp] theorem State.latch_mem (s : State) : (s.latch).mem = s.mem := rfl
@[simp] theorem State.latch_ir (s : State) : (s.latch).ir = s.mem.fetch16 s.pc := rfl
@[simp] theorem State.latch_trace (s : State) : (s.latch).trace = s.trace := rfl
@[simp] theorem State.latch_cfg (s : State) : (s.latch).cfg = s.cfg := rfl
@[simp] theorem State.latch_host (s : State) : (s.latch).host = s.host := rfl

/-! ### advance -/

@[simp] theorem State.advance_run (s : State) : (s.advance).run = if s.pc + 1#11 = 1024#11 then .halted else s.run := rfl
@[simp] theorem State.advance_pc (s : State) : (s.advance).pc = s.pc + 1#11 := rfl
@[simp] theorem State.advance_regs (s : State) : (s.advance).regs = s.regs := rfl
@[simp] theorem State.advance_carry (s : State) : (s.advance).carry = s.carry := rfl
@[simp] theorem State.advance_zero (s : State) : (s.advance).zero = s.zero := rfl
@[simp] theorem State.advance_page (s : State) : (s.advance).page = s.page := rfl
@[simp] theorem State.advance_stack (s : State) : (s.advance).stack = s.stack := rfl
@[simp] theorem State.advance_mem (s : State) : (s.advance).mem = s.mem := rfl
@[simp] theorem State.advance_ir (s : State) : (s.advance).ir = s.ir := rfl
@[simp] theorem State.advance_trace (s : State) : (s.advance).trace = s.trace := rfl
@[simp] theorem State.advance_cfg (s : State) : (s.advance).cfg = s.cfg := rfl
@[simp] theorem State.advance_host (s : State) : (s.advance).host = s.host := rfl

/-! ### jumpTo -/

@[simp] theorem State.jumpTo_run (s : State) (t : Index) : (s.jumpTo t).run = s.run := rfl
@[simp] theorem State.jumpTo_pc (s : State) (t : Index) : (s.jumpTo t).pc = t.setWidth 11 := rfl
@[simp] theorem State.jumpTo_regs (s : State) (t : Index) : (s.jumpTo t).regs = s.regs := rfl
@[simp] theorem State.jumpTo_carry (s : State) (t : Index) : (s.jumpTo t).carry = s.carry := rfl
@[simp] theorem State.jumpTo_zero (s : State) (t : Index) : (s.jumpTo t).zero = s.zero := rfl
@[simp] theorem State.jumpTo_page (s : State) (t : Index) : (s.jumpTo t).page = s.page := rfl
@[simp] theorem State.jumpTo_stack (s : State) (t : Index) : (s.jumpTo t).stack = s.stack := rfl
@[simp] theorem State.jumpTo_mem (s : State) (t : Index) : (s.jumpTo t).mem = s.mem := rfl
@[simp] theorem State.jumpTo_ir (s : State) (t : Index) : (s.jumpTo t).ir = s.ir := rfl
@[simp] theorem State.jumpTo_trace (s : State) (t : Index) : (s.jumpTo t).trace = s.trace := rfl
@[simp] theorem State.jumpTo_cfg (s : State) (t : Index) : (s.jumpTo t).cfg = s.cfg := rfl
@[simp] theorem State.jumpTo_host (s : State) (t : Index) : (s.jumpTo t).host = s.host := rfl

/-! ### raiseFault -/

@[simp] theorem State.raiseFault_run (s : State) (e : FaultReason) : (s.raiseFault e).run = .faulted e := rfl
@[simp] theorem State.raiseFault_pc (s : State) (e : FaultReason) : (s.raiseFault e).pc = s.pc := rfl
@[simp] theorem State.raiseFault_regs (s : State) (e : FaultReason) : (s.raiseFault e).regs = s.regs := rfl
@[simp] theorem State.raiseFault_carry (s : State) (e : FaultReason) : (s.raiseFault e).carry = s.carry := rfl
@[simp] theorem State.raiseFault_zero (s : State) (e : FaultReason) : (s.raiseFault e).zero = s.zero := rfl
@[simp] theorem State.raiseFault_page (s : State) (e : FaultReason) : (s.raiseFault e).page = s.page := rfl
@[simp] theorem State.raiseFault_stack (s : State) (e : FaultReason) : (s.raiseFault e).stack = s.stack := rfl
@[simp] theorem State.raiseFault_mem (s : State) (e : FaultReason) : (s.raiseFault e).mem = s.mem := rfl
@[simp] theorem State.raiseFault_ir (s : State) (e : FaultReason) : (s.raiseFault e).ir = s.ir := rfl
@[simp] theorem State.raiseFault_trace (s : State) (e : FaultReason) : (s.raiseFault e).trace = s.trace := rfl
@[simp] theorem State.raiseFault_cfg (s : State) (e : FaultReason) : (s.raiseFault e).cfg = s.cfg := rfl
@[simp] theorem State.raiseFault_host (s : State) (e : FaultReason) : (s.raiseFault e).host = s.host := rfl

/-! ### halt -/

@[simp] theorem State.halt_run (s : State) : (s.halt).run = .halted := rfl
@[simp] theorem State.halt_pc (s : State) : (s.halt).pc = s.pc := rfl
@[simp] theorem State.halt_regs (s : State) : (s.halt).regs = s.regs := rfl
@[simp] theorem State.halt_carry (s : State) : (s.halt).carry = s.carry := rfl
@[simp] theorem State.halt_zero (s : State) : (s.halt).zero = s.zero := rfl
@[simp] theorem State.halt_page (s : State) : (s.halt).page = s.page := rfl
@[simp] theorem State.halt_stack (s : State) : (s.halt).stack = s.stack := rfl
@[simp] theorem State.halt_mem (s : State) : (s.halt).mem = s.mem := rfl
@[simp] theorem State.halt_ir (s : State) : (s.halt).ir = s.ir := rfl
@[simp] theorem State.halt_trace (s : State) : (s.halt).trace = s.trace := rfl
@[simp] theorem State.halt_cfg (s : State) : (s.halt).cfg = s.cfg := rfl
@[simp] theorem State.halt_host (s : State) : (s.halt).host = s.host := rfl

/-! ### emit -/

@[simp] theorem State.emit_run (s : State) (e : Event) : (s.emit e).run = s.run := rfl
@[simp] theorem State.emit_pc (s : State) (e : Event) : (s.emit e).pc = s.pc := rfl
@[simp] theorem State.emit_regs (s : State) (e : Event) : (s.emit e).regs = s.regs := rfl
@[simp] theorem State.emit_carry (s : State) (e : Event) : (s.emit e).carry = s.carry := rfl
@[simp] theorem State.emit_zero (s : State) (e : Event) : (s.emit e).zero = s.zero := rfl
@[simp] theorem State.emit_page (s : State) (e : Event) : (s.emit e).page = s.page := rfl
@[simp] theorem State.emit_stack (s : State) (e : Event) : (s.emit e).stack = s.stack := rfl
@[simp] theorem State.emit_mem (s : State) (e : Event) : (s.emit e).mem = s.mem := rfl
@[simp] theorem State.emit_ir (s : State) (e : Event) : (s.emit e).ir = s.ir := rfl
@[simp] theorem State.emit_trace (s : State) (e : Event) : (s.emit e).trace = s.trace ++ [e] := rfl
@[simp] theorem State.emit_cfg (s : State) (e : Event) : (s.emit e).cfg = s.cfg := rfl
@[simp] theorem State.emit_host (s : State) (e : Event) : (s.emit e).host = s.host := rfl

/-! ### branch -/

@[simp] theorem State.branch_run (s : State) (b : Bool) (t : Index) :
    (s.branch b t).run = if b then s.run else if s.pc + 1#11 = 1024#11 then .halted else s.run := by
  cases b <;> rfl
@[simp] theorem State.branch_pc (s : State) (b : Bool) (t : Index) :
    (s.branch b t).pc = if b then t.setWidth 11 else s.pc + 1#11 := by cases b <;> rfl
@[simp] theorem State.branch_regs (s : State) (b : Bool) (t : Index) : (s.branch b t).regs = s.regs := by cases b <;> rfl
@[simp] theorem State.branch_carry (s : State) (b : Bool) (t : Index) : (s.branch b t).carry = s.carry := by cases b <;> rfl
@[simp] theorem State.branch_zero (s : State) (b : Bool) (t : Index) : (s.branch b t).zero = s.zero := by cases b <;> rfl
@[simp] theorem State.branch_page (s : State) (b : Bool) (t : Index) : (s.branch b t).page = s.page := by cases b <;> rfl
@[simp] theorem State.branch_stack (s : State) (b : Bool) (t : Index) : (s.branch b t).stack = s.stack := by cases b <;> rfl
@[simp] theorem State.branch_mem (s : State) (b : Bool) (t : Index) : (s.branch b t).mem = s.mem := by cases b <;> rfl
@[simp] theorem State.branch_ir (s : State) (b : Bool) (t : Index) : (s.branch b t).ir = s.ir := by cases b <;> rfl
@[simp] theorem State.branch_trace (s : State) (b : Bool) (t : Index) : (s.branch b t).trace = s.trace := by cases b <;> rfl
@[simp] theorem State.branch_cfg (s : State) (b : Bool) (t : Index) : (s.branch b t).cfg = s.cfg := by cases b <;> rfl
@[simp] theorem State.branch_host (s : State) (b : Bool) (t : Index) : (s.branch b t).host = s.host := by cases b <;> rfl

/-! ### withFetchWord -/

@[simp] theorem State.withFetchWord_run (s : State) (nbits w : Nat) : (s.withFetchWord nbits w).run = s.run := rfl
@[simp] theorem State.withFetchWord_pc (s : State) (nbits w : Nat) : (s.withFetchWord nbits w).pc = s.pc := rfl
@[simp] theorem State.withFetchWord_regs (s : State) (nbits w : Nat) : (s.withFetchWord nbits w).regs = s.regs := rfl
@[simp] theorem State.withFetchWord_carry (s : State) (nbits w : Nat) : (s.withFetchWord nbits w).carry = s.carry := rfl
@[simp] theorem State.withFetchWord_zero (s : State) (nbits w : Nat) : (s.withFetchWord nbits w).zero = s.zero := rfl
@[simp] theorem State.withFetchWord_page (s : State) (nbits w : Nat) : (s.withFetchWord nbits w).page = s.page := rfl
@[simp] theorem State.withFetchWord_stack (s : State) (nbits w : Nat) : (s.withFetchWord nbits w).stack = s.stack := rfl
@[simp] theorem State.withFetchWord_mem (s : State) (nbits w : Nat) :
    (s.withFetchWord nbits w).mem = s.mem.placeWord s.pc (BitVec.ofNat 16 (w % 2 ^ nbits)) := rfl
@[simp] theorem State.withFetchWord_ir (s : State) (nbits w : Nat) : (s.withFetchWord nbits w).ir = s.ir := rfl
@[simp] theorem State.withFetchWord_trace (s : State) (nbits w : Nat) : (s.withFetchWord nbits w).trace = s.trace := rfl
@[simp] theorem State.withFetchWord_cfg (s : State) (nbits w : Nat) : (s.withFetchWord nbits w).cfg = s.cfg := rfl
@[simp] theorem State.withFetchWord_host (s : State) (nbits w : Nat) : (s.withFetchWord nbits w).host = s.host := rfl

end Sys2Proof.Machine
end

