-- ==== Sys2Proof/Laws/Ops.lean ====
section
/-!
SUPPORT. What each shared operation can do, said once: provers cite these instead of unfolding the operation.
-/

namespace Sys2Proof.Machine

/-- ExecuteALU in full, field by field (R101). -/
theorem State.aluStep_eq (s : State) (op : AluOp) (a b c : Reg) :
    s.aluStep op a b c =
      { s with
        regs := s.regs.set c (alu op (s.readReg a) (s.readReg b)).result
        carry := (alu op (s.readReg a) (s.readReg b)).carry
        zero := (alu op (s.readReg a) (s.readReg b)).zero
        pc := s.pc + 1#11
        run := if s.pc + 1#11 = 1024#11 then .halted else s.run } := rfl

/-- The pc reaches 1024 exactly from 1023. -/
theorem pc_succ_eq_end (pc : Pc) : pc + 1#11 = 1024#11 ↔ pc = 1023#11 := by
  constructor
  · intro h; bv_omega
  · rintro rfl; rfl

/-- The data address is within the page, or spilled, or wrapped, or none (R52). -/
theorem dataAddr_cases (policy : OffsetOverflow) (page : Page) (offset : Nat) :
    offset ≤ 255 ∧ dataAddr policy page offset = some (BitVec.ofNat 11 (linearAddr page offset)) ∨
    255 < offset ∧ policy = .fault ∧ dataAddr policy page offset = none ∨
    255 < offset ∧ policy = .spill ∧ 2047 < linearAddr page offset ∧ dataAddr policy page offset = none ∨
    255 < offset ∧ policy = .spill ∧ linearAddr page offset ≤ 2047 ∧
      dataAddr policy page offset = some (BitVec.ofNat 11 (linearAddr page offset)) ∨
    255 < offset ∧ policy = .wrap ∧
      dataAddr policy page offset = some (BitVec.ofNat 11 (linearAddr page (offset % 256))) := by
  by_cases h : offset ≤ 255
  · simp [dataAddr, h]
  · cases policy
    · simp [dataAddr, h]; omega
    · by_cases h2 : linearAddr page offset ≤ 2047 <;> simp [dataAddr, h, h2] <;> omega
    · simp [dataAddr, h]; omega

/-- The page PAS sets: the value if it fits, else by PAGE_OVERFLOW (R182). -/
theorem pageOf_cases (policy : PageOverflow) (v : Byte) :
    v ≤ 7#8 ∧ pageOf policy v = some (v.setWidth 3) ∨
    ¬ v ≤ 7#8 ∧ policy = .fault ∧ pageOf policy v = none ∨
    ¬ v ≤ 7#8 ∧ policy = .mask ∧ pageOf policy v = some ((v &&& 7#8).setWidth 3) := by
  by_cases h : v ≤ 7#8
  · simp [pageOf, h]
  · cases policy <;> simp [pageOf, h]

/-- REA either reads its byte or takes the fault (R180). -/
theorem execRea_cases (a : Reg) (imm3 : BitVec 3) (c : Reg) (s : State) :
    (∃ addr, s.effectiveAddr a imm3 = some addr ∧
      execRea a imm3 c s = .next (s.writeReg c (s.readByte addr)).advance) ∨
    s.effectiveAddr a imm3 = none ∧ execRea a imm3 c s = .next (s.raiseFault .dataAddressOutOfRange) := by
  cases h : s.effectiveAddr a imm3 <;> simp [execRea, h]

/-- STO either writes its byte or takes the fault (R181). -/
theorem execSto_cases (a : Reg) (imm3 : BitVec 3) (c : Reg) (s : State) :
    (∃ addr, s.effectiveAddr a imm3 = some addr ∧
      execSto a imm3 c s = .next (s.writeByte addr (s.readReg c)).advance) ∨
    s.effectiveAddr a imm3 = none ∧ execSto a imm3 c s = .next (s.raiseFault .dataAddressOutOfRange) := by
  cases h : s.effectiveAddr a imm3 <;> simp [execSto, h]

/-- PAS either sets the page or takes the fault (R182). -/
theorem execPas_cases (imm3 : BitVec 3) (reg : Reg) (s : State) :
    (∃ p, pageOf s.cfg.pageOverflow (s.pageValue imm3 reg) = some p ∧
      execPas imm3 reg s = .next { s with page := p }.advance) ∨
    pageOf s.cfg.pageOverflow (s.pageValue imm3 reg) = none ∧
      execPas imm3 reg s = .next (s.raiseFault .pageOutOfRange) := by
  cases h : pageOf s.cfg.pageOverflow (s.pageValue imm3 reg) <;> simp [execPas, h]

/-- Taking a byte from the host counts as one input taken. -/
@[simp] theorem inputsTaken_append_inEvent (trace : List Event) (port : Port) (v : Byte) :
    inputsTaken (trace ++ [.inEvent port v]) = inputsTaken trace + 1 := by
  induction trace with
  | nil => rfl
  | cons e es ih => cases e <;> simp [inputsTaken, ih]

@[simp] theorem HostInput.answer_oracle (n : Nat) (port : Port) (trace : List Event) :
    (HostInput.oracle n).answer port trace = Config.hostOracle n port trace := rfl

@[simp] theorem HostInput.answer_stream (bytes : List Byte) (port : Port) (trace : List Event) :
    (HostInput.stream bytes).answer port trace = bytes[inputsTaken trace]? := rfl

@[simp] theorem HostInput.answer_repeating (bytes : List Byte) (port : Port) (trace : List Event) :
    (HostInput.repeating bytes).answer port trace = bytes[inputsTaken trace % bytes.length]? := rfl

@[simp] theorem HostInput.answer_table (answers : List ((Port × List Event) × Byte)) (otherwise : Option Byte)
    (port : Port) (trace : List Event) :
    (HostInput.table answers otherwise).answer port trace = (tableAnswer answers port trace).or otherwise := rfl

/-- GPI either takes the host's byte or waits (R202, R279). -/
theorem execGpi_cases (reg : Reg) (imm3 : BitVec 3) (s : State) :
    (∃ v, s.host.answer imm3 s.trace = some v ∧
      execGpi reg imm3 s = .next ((s.emit (.inEvent imm3 v)).writeReg reg v).advance) ∨
    s.host.answer imm3 s.trace = none ∧ execGpi reg imm3 s = .next s := by
  cases h : s.host.answer imm3 s.trace <;> simp [execGpi, h]

/-- RET either falls through or pops (R157). -/
theorem execRet_cases (s : State) :
    s.stack.isEmpty = true ∧ execRet s = .next s.advance ∨
    s.stack.isEmpty = false ∧ execRet s = .next ({ s with stack := s.stack.popped }.jumpTo s.stack.top) := by
  cases h : s.stack.isEmpty <;> simp [execRet, h]

/-- Everything a cycle can be: run what was fetched, or one of the three reasons for no cycle (R26, R35). -/
theorem step_cases (s : State) :
    s.run = .running ∧ s.pc < 1024#11 ∧
      step s = runDecoded (decode s.cfg.reservedBits (s.mem.fetch16 s.pc)) s.latch ∨
    s.run = .running ∧ ¬ s.pc < 1024#11 ∧ step s = .fault .pcOutOfRange ∨
    s.run = .halted ∧ step s = .fault .halted ∨
    ∃ reason, s.run = .faulted reason ∧ step s = .fault (.faulted reason) := by
  by_cases hp : s.pc < 1024#11 <;> cases h : s.run <;> simp [step, cycle, h, hp]

/-- What running a decoded word is (R26). -/
theorem runDecoded_cases (d : Decoded) (s : State) :
    (∃ i, d = .instr i ∧ runDecoded d s = exec i s) ∨
    (∃ op, d = .illegal op ∧ runDecoded d s = .next (s.raiseFault .illegalOpcode)) ∨
    ∃ op f, d = .reserved op f ∧ runDecoded d s = .next (s.raiseFault .reservedBits) := by
  cases d <;> simp [runDecoded]

/-- The first cycle of a run of `k + 1`. -/
theorem runCycles_succ_of_next (k : Nat) (s t : State) (h : step s = .next t) :
    runCycles (k + 1) s = runCycles k t := by
  simp [runCycles, h]

end Sys2Proof.Machine
end

