-- ==== Sys2Proof/Laws/Stack.lean ====
section
/-!
SUPPORT. What the call stack's operations do, entry by entry (R34, R36).
-/

namespace Sys2Proof.Machine

/-- The pushed entry is on top. -/
@[simp] theorem CallStack.push_zero (stk : CallStack) (v : Index) : (stk.push v)[0] = v := by simp [CallStack.push]

/-- After a push every entry but the last is one place down. -/
theorem CallStack.push_succ (stk : CallStack) (v : Index) (i : Nat) (h : i < 15) : (stk.push v)[i + 1] = stk[i] := by
  simp [CallStack.push]

/-- After a pop every entry but the top is one place up. -/
theorem CallStack.popped_lt (stk : CallStack) (i : Nat) (h : i < 15) : stk.popped[i] = stk[i + 1] := by
  have hl : i < stk.toList.tail.length := by simp; omega
  simp [CallStack.popped, List.getElem_append_left hl]

/-- After a pop the last entry is 0. -/
@[simp] theorem CallStack.popped_last (stk : CallStack) : stk.popped[15] = 0#10 := by
  simp [CallStack.popped]

/-- The stack is empty exactly when every entry is 0. -/
theorem CallStack.isEmpty_iff (stk : CallStack) : stk.isEmpty = true ↔ ∀ v ∈ stk.toList, v = 0#10 := by
  simp only [CallStack.isEmpty, beq_iff_eq, List.sum_eq_zero_iff, List.mem_map, forall_exists_index, and_imp,
    forall_apply_eq_imp_iff₂]
  constructor
  · intro h v hv; exact BitVec.eq_of_toNat_eq (by simpa using h v hv)
  · intro h v hv; simp [h v hv]

end Sys2Proof.Machine
end

