-- ==== Sys2Proof/Laws/WellFormed.lean ====
section
/-!
SUPPORT. Every instruction is well formed: its operands have exactly its format's widths.
-/

namespace Sys2Proof

theorem Reg.number_le (r : Reg) : r.number ≤ 7 := by cases r <;> decide

theorem Instr.wellFormed_eq_true (i : Instr) : i.wellFormed = true := by
  cases i <;>
    simp [Instr.wellFormed, Instr.format, Instr.operands, operandsFit, operandCountOk, operandRangesOk,
      Format.operandMax, Reg.number_le] <;>
    omega

end Sys2Proof
end

