-- ==== Sys2Proof/Tests/Slice0.lean ====
section
/-!
SUPPORT. The model's own tests: ill-formed operand lists refused, the words of every instruction written out
from its encoding, one or two steps of each instruction, and a state that meets the premises of each statement.
Expected values are those of 95_test_vectors (its section is named) unless a docstring says otherwise.
-/

namespace Sys2Proof.Tests

open Sys2Proof Sys2Proof.Machine Sys2Proof.Asm

/-! ### Helpers -/

/-- The reset state with a program's words from index 0. -/
def prog (ws : List Nat) : State :=
  { State.reset with mem := memoryFrom 0 (imageBytes (ws.map (BitVec.ofNat 16)) []) }

/-- The reset state with r1 and r2. -/
def two (a b : Byte) : State := (State.reset.writeReg .r1 a).writeReg .r2 b

/-- The reset state under other parameters. -/
def under (cfg : Config) : State := { State.reset with cfg := cfg }

/-- The next state, if there is one. -/
def nextOf : Host.Outcome State Fault Refusal → Option State
  | .next t => some t
  | .fault _ | .refused _ => none

/-- A register and the two flags after an instruction. -/
def regFlags (i : Instr) (r : Reg) (s : State) : Option (Byte × Bool × Bool) :=
  (nextOf (exec i s)).map fun t => (t.readReg r, t.carry, t.zero)

/-- The pc and the run state after an instruction. -/
def pcRun (i : Instr) (s : State) : Option (Nat × RunState) :=
  (nextOf (exec i s)).map fun t => (t.pc.toNat, t.run)

/-- The run state and the pc after a step. -/
def stepRun (s : State) : Option (RunState × Nat) := (nextOf (step s)).map fun t => (t.run, t.pc.toNat)

/-! ### Ill-formed operand lists (R235, R236) -/

theorem test_wellFormed_refuses_a_wrong_count :
    operandsFit .none [0] = false ∧ operandsFit .alu [1, 2] = false ∧ operandsFit .imm8ToReg [1] = false ∧
    operandsFit .imm10 [] = false ∧ operandsFit .imm3ToReg [1] = false ∧ operandsFit .regToImm3 [1, 2, 3] = false ∧
    operandsFit .imm3OrReg [1] = false ∧ operandsFit .regOnly [] = false := by decide

theorem test_wellFormed_refuses_a_value_above_its_bound :
    operandsFit .alu [8, 0, 0] = false ∧ operandsFit .alu [0, 8, 0] = false ∧ operandsFit .alu [0, 0, 8] = false ∧
    operandsFit .imm8ToReg [8, 0] = false ∧ operandsFit .imm8ToReg [0, 256] = false ∧
    operandsFit .imm10 [1024] = false ∧ operandsFit .imm3ToReg [8, 0] = false ∧
    operandsFit .imm3ToReg [0, 8] = false ∧ operandsFit .regToImm3 [8, 0] = false ∧
    operandsFit .regToImm3 [0, 8] = false ∧ operandsFit .imm3OrReg [8, 0] = false ∧
    operandsFit .imm3OrReg [0, 8] = false ∧ operandsFit .regOnly [8] = false := by decide

theorem test_wellFormed_refuses_a_negative_value :
    operandsFit .alu [0, -1, 0] = false ∧ operandsFit .imm8ToReg [0, -1] = false ∧
    operandsFit .imm10 [-1] = false ∧ operandsFit .regOnly [-1] = false := by decide

/-- Premises of the third clause of `EncodeDecodeRoundTrip`, at the largest operands of each format. -/
theorem witness_operandsFit_at_the_bounds :
    operandsFit .none [] = true ∧ operandsFit .alu [7, 7, 7] = true ∧ operandsFit .imm8ToReg [7, 255] = true ∧
    operandsFit .imm10 [1023] = true ∧ operandsFit .imm3ToReg [7, 7] = true ∧
    operandsFit .regToImm3 [7, 7] = true ∧ operandsFit .imm3OrReg [7, 7] = true ∧ operandsFit .regOnly [7] = true ∧
    formatOf 2#5 = some .alu ∧ formatOf 26#5 = some .regOnly := by decide

/-! ### The word of every instruction, its fields written out (30_encoding R72 to R80) -/

theorem test_decode_alu_words :
    decode .fault 0b00010_00_001_010_011#16 = .instr (.add .r1 .r2 .r3) ∧
    decode .fault 0b00100_00_001_011_001#16 = .instr (.sub .r1 .r3 .r1) ∧
    decode .fault 0b00101_00_001_000_010#16 = .instr (.xor .r1 .r0 .r2) ∧
    decode .fault 0b00110_00_001_010_011#16 = .instr (.xno .r1 .r2 .r3) ∧
    decode .fault 0b00111_00_100_101_110#16 = .instr (.ior .r4 .r5 .r6) ∧
    decode .fault 0b01000_00_001_010_011#16 = .instr (.nor .r1 .r2 .r3) ∧
    decode .fault 0b01001_00_111_000_001#16 = .instr (.and .r7 .r0 .r1) ∧
    decode .fault 0b01010_00_001_010_011#16 = .instr (.nan .r1 .r2 .r3) ∧
    decode .fault 0b01011_00_001_000_011#16 = .instr (.rsh .r1 .r0 .r3) := by decide

theorem test_decode_immediate_and_control_words :
    decode .fault 0b00011_00001000_010#16 = .instr (.adi .r2 8#8) ∧
    decode .fault 0b01100_11111111_111#16 = .instr (.ldi .r7 255#8) ∧
    decode .fault 0b01101_1111111111_0#16 = .instr (.jmp 1023#10) ∧
    decode .fault 0b01110_0000000110_0#16 = .instr (.beq 6#10) ∧
    decode .fault 0b01111_0000000010_0#16 = .instr (.bne 2#10) ∧
    decode .fault 0b10000_0000000110_0#16 = .instr (.bgt 6#10) ∧
    decode .fault 0b10001_0000000001_0#16 = .instr (.blt 1#10) ∧
    decode .fault 0b10010_0000000100_0#16 = .instr (.cal 4#10) ∧
    decode .fault 0b10011_00000000000#16 = .instr .ret := by decide

theorem test_decode_memory_and_system_words :
    decode .fault 0b10100_00_001_111_010#16 = .instr (.rea .r1 7#3 .r2) ∧
    decode .fault 0b10101_00_001_110_010#16 = .instr (.sto .r1 6#3 .r2) ∧
    decode .fault 0b10110_00000_010_001#16 = .instr (.gpi .r1 2#3) ∧
    decode .fault 0b10111_00_001_110_000#16 = .instr (.gpo .r1 6#3) ∧
    decode .fault 0b11001_110_00_001_000#16 = .instr (.pas 6#3 .r1) ∧
    decode .fault 0b11010_00000000_101#16 = .instr (.pag .r5) ∧
    decode .fault 0b00000_00000000000#16 = .instr .nop ∧ decode .fault 0b00001_00000000000#16 = .instr .hlt ∧
    decode .fault 0b11000_00000000000#16 = .instr .bel := by decide

theorem test_encode_words :
    encode (.add .r7 .r7 .r7) = 0x11FF#16 ∧ encode (.adi .r7 255#8) = 0x1FFF#16 ∧ encode (.cal 1023#10) = 0x97FE#16 ∧
    encode (.gpi .r7 7#3) = 0xB03F#16 ∧ encode (.gpo .r7 7#3) = 0xB9F8#16 ∧ encode (.pas 1#3 .r0) = 0xC900#16 ∧
    encode (.pag .r7) = 0xD007#16 ∧ encodeBytes (.ldi .r1 5#8) = [0x29#8, 0x60#8] := by decide

/-- R72 to R79: one reserved bit of each format that has one. -/
theorem test_decode_refuses_reserved_bits :
    decode .fault 0x0001#16 = .reserved 0#5 0x001#11 ∧ decode .fault 0x1253#16 = .reserved 2#5 0x253#11 ∧
    decode .fault 0x6801#16 = .reserved 13#5 0x001#11 ∧ decode .fault 0xB041#16 = .reserved 22#5 0x041#11 ∧
    decode .fault 0xB849#16 = .reserved 23#5 0x049#11 ∧ decode .fault 0xCF39#16 = .reserved 25#5 0x739#11 ∧
    decode .fault 0xD00D#16 = .reserved 26#5 0x00D#11 ∧ decode .ignore 0x6803#16 = .instr (.jmp 1#10) := by decide

/-- R83: the opcode is looked at before the reserved bits (section 8). -/
theorem test_decode_refuses_illegal_opcodes :
    decode .fault 0xD800#16 = .illegal 27#5 ∧ decode .ignore 0xFFFF#16 = .illegal 31#5 := by decide

/-- R88: the low byte comes first; a lone byte is no word. -/
theorem test_decodeBytes_takes_the_low_byte_first :
    decodeBytes .fault [0x53#8, 0x10#8, 0xAA#8] = .word (.instr (.add .r1 .r2 .r3)) [0xAA#8] ∧
    decodeBytes .fault [0x53#8] = .truncated [0x53#8] ∧ decodeTableWord 16 0x1053 = some (.add .r1 .r2 .r3) := by decide

/-- `withFetchWord` puts a word where the next step fetches it. -/
theorem test_withFetchWord_runs_the_word :
    (nextOf (step (State.reset.withFetchWord 16 0x6029))).map (fun t => (t.readReg .r1, t.pc.toNat)) =
      some (5#8, 1) := by decide

/-! ### ALU-op instructions (section 3) -/

theorem test_add_wraps : regFlags (.add .r1 .r2 .r3) .r3 (two 200#8 100#8) = some (44#8, true, false) := by decide
theorem test_add_reads_before_it_writes :
    regFlags (.add .r1 .r1 .r1) .r1 (two 3#8 0#8) = some (6#8, false, false) := by decide
theorem test_sub_borrow_clears_carry :
    regFlags (.sub .r1 .r2 .r3) .r3 (two 5#8 10#8) = some (251#8, false, false) := by decide
theorem test_sub_to_r0_writes_flags :
    regFlags (.sub .r1 .r2 .r0) .r0 (two 200#8 100#8) = some (0#8, true, false) := by decide
theorem test_xor_carry_when_a_is_greater :
    regFlags (.xor .r1 .r2 .r3) .r3 (two 10#8 5#8) = some (15#8, true, false) := by decide
theorem test_xor_carry_clear_when_a_is_less :
    regFlags (.xor .r1 .r2 .r3) .r3 (two 5#8 10#8) = some (15#8, false, false) := by decide
theorem test_xno_carry_is_the_sums :
    regFlags (.xno .r1 .r2 .r3) .r3 (two 200#8 100#8) = some (83#8, true, false) := by decide
theorem test_xno_zero : regFlags (.xno .r1 .r2 .r3) .r3 (two 170#8 85#8) = some (0#8, false, true) := by decide
theorem test_ior : regFlags (.ior .r1 .r2 .r3) .r3 (two 60#8 15#8) = some (63#8, false, false) := by decide
theorem test_ior_overwrites_both_flags :
    regFlags (.ior .r1 .r2 .r3) .r3 { two 0#8 0#8 with carry := true, zero := true } =
      some (0#8, false, true) := by decide
theorem test_nor : regFlags (.nor .r1 .r2 .r3) .r3 (two 60#8 15#8) = some (192#8, false, false) := by decide
theorem test_and : regFlags (.and .r1 .r2 .r3) .r3 (two 60#8 15#8) = some (12#8, false, false) := by decide
theorem test_nan_is_not_nand :
    regFlags (.nan .r1 .r2 .r3) .r3 (two 0x0F#8 0xF0#8) = some (0#8, false, true) := by decide
theorem test_rsh_drops_bit_8 :
    regFlags (.rsh .r1 .r2 .r3) .r3 (two 255#8 1#8) = some (0#8, true, true) := by decide
theorem test_rsh_shorthand_halves :
    regFlags (.rsh .r1 .r0 .r3) .r3 (two 200#8 0#8) = some (100#8, false, false) := by decide

/-! ### Immediate and control instructions (sections 4 and 5) -/

theorem test_adi_wraps_without_flags :
    regFlags (.adi .r1 1#8) .r1 (two 255#8 0#8) = some (0#8, false, false) := by decide
theorem test_adi_with_flags :
    regFlags (.adi .r1 1#8) .r1 { two 255#8 0#8 with cfg := { adiWritesFlags := true } } =
      some (0#8, true, true) := by decide
theorem test_ldi : regFlags (.ldi .r1 5#8) .r1 State.reset = some (5#8, false, false) := by decide
theorem test_ldi_to_r0 : regFlags (.ldi .r0 5#8) .r0 State.reset = some (0#8, false, false) := by decide
theorem test_jmp : pcRun (.jmp 1023#10) { State.reset with pc := 5#11 } = some (1023, .running) := by decide
theorem test_beq_both_ways :
    pcRun (.beq 3#10) State.reset = some (1, .running) ∧
    pcRun (.beq 3#10) { State.reset with zero := true } = some (3, .running) := by decide
theorem test_bne_both_ways :
    pcRun (.bne 3#10) State.reset = some (3, .running) ∧
    pcRun (.bne 3#10) { State.reset with zero := true } = some (1, .running) := by decide
theorem test_bgt_both_ways :
    pcRun (.bgt 3#10) State.reset = some (1, .running) ∧
    pcRun (.bgt 3#10) { State.reset with carry := true } = some (3, .running) := by decide
theorem test_blt_both_ways :
    pcRun (.blt 3#10) State.reset = some (3, .running) ∧
    pcRun (.blt 3#10) { State.reset with carry := true } = some (1, .running) := by decide

theorem test_cal_pushes_the_next_index :
    (nextOf (exec (.cal 4#10) { State.reset with pc := 1#11 })).map (fun t => (t.pc.toNat, t.stack[0], t.stack[1])) =
      some (4, 2#10, 0#10) := by decide
theorem test_cal_at_1023_pushes_0 :
    (nextOf (exec (.cal 2#10) { State.reset with pc := 1023#11, stack := Vector.replicate 16 9#10 })).map
      (fun t => (t.pc.toNat, t.stack[0], t.stack[15], t.run)) = some (2, 0#10, 9#10, .running) := by decide
theorem test_ret_pops_a_zero_above_an_entry :
    (nextOf (exec .ret { State.reset with pc := 5#11, stack := (Vector.replicate 16 0#10).set 1 1#10 })).map
      (fun t => (t.pc.toNat, t.stack[0], t.stack[1])) = some (0, 1#10, 0#10) := by decide
theorem test_ret_on_an_empty_stack : pcRun .ret { State.reset with pc := 5#11 } = some (6, .running) := by decide

/-! ### Memory and page instructions (section 6) -/

theorem test_rea :
    regFlags (.rea .r1 0#3 .r2) .r2 { two 20#8 0#8 with mem := [(20, 42#8)] } = some (42#8, false, false) := by decide
theorem test_rea_offset_above_255_faults :
    pcRun (.rea .r1 7#3 .r2) (two 250#8 0#8) = some (0, .faulted .dataAddressOutOfRange) := by decide
theorem test_sto :
    (nextOf (exec (.sto .r0 7#3 .r2) { two 0#8 50#8 with page := 1#3 })).map (fun t => t.mem) =
      some [(263, 50#8)] := by decide
theorem test_sto_of_zero_removes_the_cell :
    (nextOf (exec (.sto .r0 7#3 .r2) { State.reset with mem := [(6, 1#8), (7, 2#8)] })).map (fun t => t.mem) =
      some [(6, 1#8)] := by decide
theorem test_pas_is_an_or :
    (nextOf (exec (.pas 1#3 .r1) (two 2#8 0#8))).map (fun t => (t.page, t.pc.toNat)) = some (3#3, 1) ∧
    (nextOf (exec (.pas 1#3 .r1) (two 1#8 0#8))).map (fun t => (t.page, t.pc.toNat)) = some (1#3, 1) := by decide
theorem test_pas_above_7 :
    pcRun (.pas 5#3 .r1) (two 10#8 0#8) = some (0, .faulted .pageOutOfRange) ∧
    (nextOf (exec (.pas 5#3 .r1) { two 10#8 0#8 with cfg := { pageOverflow := .mask } })).map (fun t => t.page) =
      some 7#3 := by decide
theorem test_pag :
    regFlags (.pag .r5) .r5 { State.reset with page := 3#3 } = some (3#8, false, false) := by decide

/-- The two boundaries of R52: offset 255 and 256, linear address 2047 and 2048. -/
theorem test_dataAddr_at_its_boundaries :
    dataAddr .fault 7#3 255 = some 2047#11 ∧ dataAddr .fault 0#3 256 = none ∧
    dataAddr .spill 6#3 262 = some 1798#11 ∧ dataAddr .spill 7#3 255 = some 2047#11 ∧
    dataAddr .spill 7#3 256 = none ∧ dataAddr .wrap 7#3 256 = some 1792#11 ∧
    dataAddr .wrap 0#3 257 = some 1#11 := by decide

/-! ### System and I/O instructions (section 7) -/

theorem test_nop : pcRun .nop State.reset = some (1, .running) := by decide
theorem test_nop_at_the_end_halts :
    pcRun .nop { State.reset with pc := 1023#11 } = some (1024, .halted) := by decide
theorem test_hlt_keeps_the_pc : pcRun .hlt { State.reset with pc := 3#11 } = some (3, .halted) := by decide
theorem test_gpi_takes_a_byte :
    (nextOf (exec (.gpi .r0 3#3) { State.reset with host := .stream [9#8] })).map
      (fun t => (t.readReg .r0, t.trace, t.pc.toNat)) = some (0#8, [.inEvent 3#3 9#8], 1) := by decide
theorem test_gpi_waits : nextOf (exec (.gpi .r1 0#3) State.reset) = some State.reset := by decide
theorem test_gpo :
    (nextOf (exec (.gpo .r1 1#3) (two 7#8 0#8))).map (fun t => t.trace) = some [.outEvent 1#3 7#8] := by decide
theorem test_bel :
    (nextOf (exec .bel { State.reset with pc := 4#11 })).map (fun t => (t.trace, t.pc.toNat)) =
      some ([.bellEvent], 5) := by decide

/-! ### The assembler (section 9) -/

/-- A program of lines. -/
def asm (lines : List String) : AsmResult := assembleLines {} lines

theorem test_assemble_variables_and_case :
    asm [".a 1", ".b 2", "ldi R1 B", "HLT"] = .image [0x29#8, 0x60#8, 0x00#8, 0x08#8, 0x01#8, 0x02#8] := by decide
theorem test_assemble_labels_and_comments :
    asm ["JMP end", "  ; only a comment", "NOP", "end: ; here", "HLT"] =
      .image [0x04#8, 0x68#8, 0x00#8, 0x00#8, 0x00#8, 0x08#8] := by decide
theorem test_assemble_definitions_and_shorthands :
    asm ["#K 7", "ADI r1 K", "RSH r1 r3", "PAS r4"] =
      .image [0x39#8, 0x18#8, 0x43#8, 0x58#8, 0x20#8, 0xC8#8] := by decide
theorem test_assemble_refuses_names :
    asm ["Foo:", "FOO:"] = .failed 1 ∧ asm ["r1:"] = .failed 1 ∧ asm ["123:"] = .failed 1 ∧ asm [":"] = .failed 1 ∧
    asm ["foo bar:"] = .failed 1 ∧ asm ["LDI r8 1"] = .failed 1 ∧ asm ["ADD r1, r2, r3"] = .failed 1 := by decide
theorem test_assemble_refuses_values_and_counts :
    asm [".v 256"] = .failed 1 ∧ asm ["#d -1"] = .failed 1 ∧ asm ["#d 1e3"] = .failed 1 ∧
    asm ["LDI r1 256"] = .failed 1 ∧ asm ["JMP 1024"] = .failed 1 ∧ asm ["HLT 5"] = .failed 1 ∧
    asm ["FOO r1"] = .failed 1 := by decide
theorem test_assemble_port_names :
    asm ["GPI r1 p3"] = .failed 1 ∧ assembleLines { portAliases := true } ["GPI r1 p3"] = .image [0x19#8, 0xB0#8] := by
  decide

/-! ### Premises met -/

/-- Second clause of `EncodeDecodeRoundTrip`. -/
theorem witness_legal_word : ∃ w i, decode .fault w = .instr i := ⟨0x1053#16, .add .r1 .r2 .r3, by decide⟩

/-- `Cycles`, the premise of most statements about a step, at both ends of the pc's range. -/
theorem witness_cycles : State.reset.Cycles ∧ State.Cycles { State.reset with pc := 1023#11 } :=
  ⟨⟨rfl, by decide⟩, ⟨rfl, by decide⟩⟩

/-- `ReservedBitsFollowThePolicy`: a word with a reserved bit, under each policy. -/
theorem witness_reserved_bits (policy : ReservedBitsPolicy) :
    State.Cycles { prog [0x6803] with cfg := { reservedBits := policy } } ∧
    formatOf (opcodeField ((prog [0x6803]).mem.fetch16 0#11)) = some .imm10 ∧
    operandField ((prog [0x6803]).mem.fetch16 0#11) &&& reservedMask .imm10 ≠ 0#11 :=
  ⟨⟨rfl, (by decide : (0#11).toNat < 1024)⟩, by decide⟩

/-- `FetchReadsTwoBytesLowFirst` at the last index. -/
theorem witness_fetch_at_1023 : ∃ s : State, s.pc.toNat < 1024 ∧ 2 * s.pc.toNat + 1 = 2047 :=
  ⟨{ State.reset with pc := 1023#11 }, by decide⟩

/-- `StepRunsDecodedInstruction`. -/
theorem witness_fetched : (prog [0x1053]).Cycles ∧ (prog [0x1053]).fetched = .instr (.add .r1 .r2 .r3) :=
  ⟨⟨rfl, by decide⟩, by decide⟩

/-- The three clauses of `StoppedCoreStays`. -/
theorem witness_stopped :
    (State.reset.halt).run = .halted ∧ (State.reset.raiseFault .illegalOpcode).run = .faulted .illegalOpcode ∧
    (runCycles 4 (prog [0x6029, 0x6052, 0x1053, 0x0800])).run ≠ .running := by decide

/-- `EndOfAddressSpaceHalts` on both sides of its boundary. -/
theorem witness_end_of_address_space :
    stepRun { State.reset with pc := 1022#11 } = some (.running, 1023) ∧
    stepRun { State.reset with pc := 1023#11 } = some (.halted, 1024) := by decide

/-- `StepKeepsInv`, from reset and from a state that stores. -/
theorem witness_step_with_inv :
    State.reset.Inv ∧ (∃ t, step State.reset = .next t) ∧
    (prog [0xA83A]).Inv ∧ ∃ t, step (prog [0xA83A]) = .next t :=
  ⟨⟨by decide, by decide, by decide⟩, ⟨_, rfl⟩, ⟨by decide, by decide, by decide⟩, ⟨_, rfl⟩⟩

/-- `BootLoadsImage`: a full image and one a byte longer; an address in an image and one past it. -/
theorem witness_boot_lengths :
    (List.replicate 2048 1#8).length ≤ 2048 ∧ 2048 < (List.replicate 2049 1#8).length ∧
    (0#11 : Addr).toNat < [1#8].length ∧ [1#8].length ≤ (1#11 : Addr).toNat := by
  exact ⟨by rw [List.length_replicate], by rw [List.length_replicate]; omega, by decide, by decide⟩

/-- `BootedRunNeverLosesItsPc`. -/
theorem witness_booted : ∃ s, State.boot .standard (.stream []) [0x53#8, 0x10#8] = some s ∧ (runCycles 1 s).run = .running :=
  ⟨_, rfl, by decide⟩

/-- `ZeroMemoryRunsToTheEnd`. -/
theorem witness_zero_memory : State.reset.Cycles ∧ ∀ a, State.reset.readByte a = 0#8 :=
  ⟨⟨rfl, by decide⟩, fun _ => rfl⟩

/-- `IllegalOpcodeFaults` at the first and the last illegal opcode. -/
theorem witness_illegal_opcodes :
    (prog [0xD800]).Cycles ∧ (opcodeField ((prog [0xD800]).mem.fetch16 0#11)).toNat = 27 ∧
    (prog [0xFFFF]).Cycles ∧ (opcodeField ((prog [0xFFFF]).mem.fetch16 0#11)).toNat = 31 :=
  ⟨⟨rfl, by decide⟩, by decide, ⟨rfl, by decide⟩, by decide⟩

/-- Each of the four faults is taken somewhere (`FaultsArePrecise`, `FaultsInExactlyTheseCases`; section 8). -/
theorem witness_four_faults :
    stepRun (prog [0xD800]) = some (.faulted .illegalOpcode, 0) ∧
    stepRun (prog [0x080B]) = some (.faulted .reservedBits, 0) ∧
    stepRun { prog [0xA07A] with regs := (two 250#8 0#8).regs } = some (.faulted .dataAddressOutOfRange, 0) ∧
    stepRun { prog [0xC808] with regs := (two 8#8 0#8).regs } = some (.faulted .pageOutOfRange, 0) := by decide

/-- The same words just inside the bounds: no fault (offset 255, value 7, section 8's `ignore`). -/
theorem witness_no_fault_at_the_bounds :
    stepRun { prog [0x080B] with cfg := { reservedBits := .ignore } } = some (.halted, 0) ∧
    stepRun { prog [0xA07A] with regs := (two 248#8 0#8).regs } = some (.running, 1) ∧
    stepRun { prog [0xC808] with regs := (two 7#8 0#8).regs } = some (.running, 1) := by decide

/-- The `spill` and `wrap` clauses of `FaultsInExactlyTheseCases`: linear address 2048 faults and 2047 does not. -/
theorem witness_spill_at_the_bounds :
    stepRun { prog [0xA04A] with regs := (two 255#8 0#8).regs, page := 7#3, cfg := { offsetOverflow := .spill } } =
      some (.faulted .dataAddressOutOfRange, 0) ∧
    stepRun { prog [0xA042] with regs := (two 255#8 0#8).regs, page := 7#3, cfg := { offsetOverflow := .spill } } =
      some (.running, 1) ∧
    stepRun { prog [0xA04A] with regs := (two 255#8 0#8).regs, page := 7#3, cfg := { offsetOverflow := .wrap } } =
      some (.running, 1) := by decide

/-- Every clause of `OnlyTheNamedPartsChange`: each part is changed by an instruction that may change it. -/
theorem witness_each_part_changes :
    (nextOf (exec (.ldi .r1 5#8) State.reset)).map (fun t => decide (t.readReg .r1 = 0#8)) = some false ∧
    (nextOf (exec (.sub .r1 .r2 .r3) State.reset)).map (fun t => (t.carry, t.zero)) = some (true, true) ∧
    (nextOf (exec (.pas 7#3 .r0) State.reset)).map (fun t => t.page) = some 7#3 ∧
    (nextOf (exec (.cal 4#10) State.reset)).map (fun t => t.stack[0]) = some 1#10 ∧
    (nextOf (exec (.sto .r1 0#3 .r1) (two 5#8 0#8))).map (fun t => t.readByte 5#11) = some 5#8 ∧
    (two 5#8 0#8).effectiveAddr .r1 0#3 = some 5#11 ∧
    (nextOf (exec .bel State.reset)).map (fun t => t.trace) = some [.bellEvent] ∧
    (nextOf (exec .hlt State.reset)).map (fun t => t.run) = some .halted := by decide

/-- `TraceGrowsByTheInstructionsEvent`, in each of its four cases. -/
theorem witness_trace :
    (nextOf (step (prog [0x0000]))).map (fun t => t.trace) = some [] ∧
    (nextOf (step { prog [0xB001] with host := .stream [7#8] })).map (fun t => t.trace) = some [.inEvent 0#3 7#8] ∧
    (nextOf (step (prog [0xB848]))).map (fun t => t.trace) = some [.outEvent 1#3 0#8] ∧
    (nextOf (step (prog [0xC000]))).map (fun t => t.trace) = some [.bellEvent] := by decide

/-- `AluReadsNoFlag`, at the first and the last ALU-op opcode. -/
theorem witness_alu_ops : isAluOp (.add .r1 .r2 .r3) = true ∧ isAluOp (.rsh .r1 .r2 .r3) = true := by decide

/-- `CallThenReturn` at the last index it speaks of. -/
theorem witness_call_then_return : ∃ s : State, s.pc.toNat < 1023 ∧ s.pc.toNat + 1 = 1023 :=
  ⟨{ State.reset with pc := 1022#11 }, by decide⟩

/-- `StackHoldsTheLastSixteen` at 16 pushes, and at S7's 17, which lose the first. -/
theorem witness_seventeen_pushes :
    16 ≤ (List.replicate 16 1#10).length ∧
    ([1, 2, 3, 4, 5, 6, 7, 8, 9, 10, 11, 12, 13, 14, 15, 16, 17].foldl CallStack.push State.reset.stack).toList =
      [17, 16, 15, 14, 13, 12, 11, 10, 9, 8, 7, 6, 5, 4, 3, 2] := by decide

/-- Both clauses of `ReaResult` and `StoResult`, at offset 255 and 256, in a memory of canonical form. -/
theorem witness_effective_addresses :
    (two 248#8 0#8).effectiveAddr .r1 7#3 = some 255#11 ∧ (two 249#8 0#8).effectiveAddr .r1 7#3 = none ∧
    State.effectiveAddr { two 249#8 0#8 with cfg := { offsetOverflow := .spill } } .r1 7#3 = some 256#11 ∧
    State.effectiveAddr { two 249#8 0#8 with cfg := { offsetOverflow := .wrap } } .r1 7#3 = some 0#11 ∧
    (two 248#8 0#8).mem.wf := by decide

/-- The branches of `RetResult` and `PasResult` that depend on the state. -/
theorem witness_ret_and_pas :
    (∀ i : Fin 16, State.reset.stack[i] = 0#10) ∧ ((Vector.replicate 16 0#10).set 1 1#10)[(1 : Fin 16)] ≠ 0#10 ∧
    (0#3).toNat ||| ((two 7#8 0#8).readReg .r1).toNat ≤ 7 ∧
    ¬(0#3).toNat ||| ((two 8#8 0#8).readReg .r1).toNat ≤ 7 := by decide

/-- Both clauses of `StoreIsSeenByTheNextFetch`: the low and the high byte of the next word. -/
theorem witness_store_to_the_next_word :
    (two 2#8 0#8).mem.wf ∧ (two 2#8 0#8).effectiveAddr .r1 0#3 = some (lowByteAddr 1#11) ∧
    (two 3#8 0#8).mem.wf ∧ (two 3#8 0#8).effectiveAddr .r1 0#3 = some (highByteAddr 1#11) ∧
    pcRun (.sto .r1 0#3 .r2) (two 2#8 0#8) = some (1, .running) := by decide

/-- Both clauses of `GpiResult`, and the premises of `UnansweredInputIsStuck` and `StreamInputIsUsedInOrder`. -/
theorem witness_input :
    (HostInput.stream [7#8]).answer 0#3 [] = some 7#8 ∧
    (HostInput.table [((2#3, [.bellEvent]), 4#8)] none).answer 2#3 [.bellEvent] = some 4#8 ∧
    (HostInput.table [((2#3, [.bellEvent]), 4#8)] none).answer 3#3 [.bellEvent] = none ∧
    (HostInput.repeating [7#8, 0#8]).answer 0#3 [.inEvent 0#3 7#8, .inEvent 1#3 0#8] = some 7#8 ∧
    (prog [0xB001]).host.answer 0#3 (prog [0xB001]).trace = none ∧
    (prog [0xB001]).fetched = .instr (.gpi .r1 0#3) ∧ (prog [0xB001]).run = .running ∧
    (prog [0xB001]).pc.toNat < 1024 ∧ inputsTaken [.inEvent 0#3 7#8] < [7#8, 0#8].length := by decide

/-- `AlwaysAnsweringHostNeverBlocks`: a host with an answer to everything, before a GPI that a cycle fetches. -/
theorem witness_always_answering_host :
    ∃ s : State, (∀ port trace, (s.host.answer port trace).isSome = true) ∧
      (runCycles 0 s).fetched = .instr (.gpi .r1 0#3) ∧ (∃ t, step (runCycles 0 s) = .next t) ∧
      [7#8] ≠ ([] : List Byte) :=
  ⟨{ prog [0xB001] with host := .repeating [7#8] }, fun _ _ => by simp [Nat.mod_one], by decide, ⟨_, rfl⟩,
    by decide⟩

/-- The review's program, GPI then JMP 0, runs on under a host that always answers (R279, D20). -/
theorem test_gpi_loop_never_blocks :
    (runCycles 7 { prog [0xB001, 0x6800] with host := .repeating [7#8, 9#8] }).trace =
      [.inEvent 0#3 7#8, .inEvent 0#3 9#8, .inEvent 0#3 7#8, .inEvent 0#3 9#8] := by decide

/-- The image, the failure and the errors the assembler's statements speak of. -/
theorem witness_assembler_results :
    asm ["HLT"] = .image [0x00#8, 0x08#8] ∧ asm ["ADD r1 r2"] = .failed 1 ∧
    0 < (passOne {} [":".toList]).errors := by decide

/-- `VariableAddresses`: a first and a second variable. -/
theorem witness_variables :
    (passOne {} [".a 1".toList, ".b 2".toList, "HLT".toList]).varOrder[0]? = some "a".toList ∧
    (passOne {} [".a 1".toList, ".b 2".toList, "HLT".toList]).varOrder[1]? = some "b".toList := by decide

/-- `ShorthandsResolveAsTheirFullForms`: records of its first two clauses, and operands of its third. -/
theorem witness_shorthands :
    (passOne {} ["RSH r1 r3".toList]).records.map (fun r => (r.opcode, r.tokens)) =
      [(some 11#5, ["RSH".toList, "r1".toList, "r3".toList])] ∧
    (passOne {} ["PAS r4".toList]).records.map (fun r => (r.opcode, r.tokens)) =
      [(some 25#5, ["PAS".toList, "r4".toList])] ∧
    ¬((11#5 : BitVec 5) = 11 ∧ [1, 0, 3].length = 2) ∧ ¬((11#5 : BitVec 5) = 25 ∧ [1, 0, 3].length = 1) := by decide

/-- `InvalidLineChangesNothingElse`. -/
theorem witness_invalid_line :
    (classifyLine (.initial {}) ".v 256".toList).errors ≠ (Session.initial {}).errors := by decide

end Sys2Proof.Tests
end

section
/-!
PROOFS. What an instruction and a step can do, said once. `ExecWrites` is the part of an instruction before its
pc update, `ExecEnds` the whole instruction, `StepEnds` the whole cycle; `exec_ends` and `step_ends` tie them to
`exec` and `step`. Every later proof argues by these cases and never unfolds an instruction.
-/

namespace Sys2Proof.Machine

/-! ### The cases of an instruction -/

/-- The instructions that may write C and Z (R24, R140). -/
def MayWriteFlags (s : State) (i : Instr) : Prop :=
  isAluOp i = true ∨ s.cfg.adiWritesFlags = true ∧ ∃ reg imm8, i = .adi reg imm8

/-- An instruction that always goes to its target (R151, R156). -/
def alwaysTransfers : Instr → Bool
  | .jmp _ | .cal _ => true
  | _ => false

/-- What an instruction has written in `u` when only its pc update is left (R24's "writes" column). -/
inductive ExecWrites (s : State) : Instr → State → Prop
  | nothing (i : Instr) : ExecWrites s i s
  | register (i : Instr) (c : Reg) (v : Byte) (hd : destination i = some c) : ExecWrites s i (s.writeReg c v)
  | registerAndFlags (i : Instr) (c : Reg) (v : Byte) (carry zero : Bool) (hd : destination i = some c)
      (hf : MayWriteFlags s i) : ExecWrites s i ((s.writeReg c v).writeFlags carry zero)
  | page (imm3 : BitVec 3) (reg : Reg) (p : Page) : ExecWrites s (.pas imm3 reg) { s with page := p }
  | push (target : Index) : ExecWrites s (.cal target) { s with stack := s.stack.push s.returnAddress }
  | pop : ExecWrites s .ret { s with stack := s.stack.popped }
  | byte (a : Reg) (imm3 : BitVec 3) (c : Reg) (addr : Addr) (ha : s.effectiveAddr a imm3 = some addr) :
      ExecWrites s (.sto a imm3 c) (s.writeByte addr (s.readReg c))
  | input (reg : Reg) (port : Port) (v : Byte) (hv : s.host.answer port s.trace = some v) :
      ExecWrites s (.gpi reg port) ((s.emit (.inEvent port v)).writeReg reg v)
  | output (reg : Reg) (port : Port) : ExecWrites s (.gpo reg port) (s.emit (.outEvent port (s.readReg reg)))
  | bell : ExecWrites s .bel (s.emit .bellEvent)

/-- The instructions that fault, and when (R52, R182). -/
inductive ExecRaises (s : State) : Instr → FaultReason → Prop
  | rea (a : Reg) (imm3 : BitVec 3) (c : Reg) (ha : s.effectiveAddr a imm3 = none) :
      ExecRaises s (.rea a imm3 c) .dataAddressOutOfRange
  | sto (a : Reg) (imm3 : BitVec 3) (c : Reg) (ha : s.effectiveAddr a imm3 = none) :
      ExecRaises s (.sto a imm3 c) .dataAddressOutOfRange
  | pas (imm3 : BitVec 3) (reg : Reg) (hp : pageOf s.cfg.pageOverflow (s.pageValue imm3 reg) = none) :
      ExecRaises s (.pas imm3 reg) .pageOutOfRange

/-- How an instruction ends: it moves on, goes to a target, faults, halts, or waits for the host. -/
inductive ExecEnds (s : State) (i : Instr) : State → Prop
  | movedOn (u : State) (hw : ExecWrites s i u) (hi : alwaysTransfers i = false) : ExecEnds s i u.advance
  | wentTo (u : State) (target : Index) (hw : ExecWrites s i u) : ExecEnds s i (u.jumpTo target)
  | faulted (reason : FaultReason) (hr : ExecRaises s i reason) : ExecEnds s i (s.raiseFault reason)
  | halted (hi : i = .hlt) : ExecEnds s i s.halt
  | waited (reg : Reg) (port : Port) (hi : i = .gpi reg port) (hn : s.host.answer port s.trace = none) :
      ExecEnds s i s

/-- The conditional branches move on or go to their target, and write nothing (R150). -/
theorem branch_ends (i : Instr) (s : State) (taken : Bool) (target : Index) (hi : alwaysTransfers i = false) :
    ExecEnds s i (s.branch taken target) := by
  cases taken with
  | true => exact .wentTo s target (.nothing i)
  | false => exact .movedOn s (.nothing i) hi

/-- The ALU-op instructions write their destination and both flags and move on (R101). -/
theorem aluStep_ends (i : Instr) (s : State) (op : AluOp) (a b c : Reg) (hd : destination i = some c)
    (ha : isAluOp i = true) (hi : alwaysTransfers i = false) : ExecEnds s i (s.aluStep op a b c) :=
  .movedOn _ (.registerAndFlags i c _ _ _ hd (.inl ha)) hi

/-- Every instruction has a next state, in one of the ways of `ExecEnds`. -/
theorem exec_ends (i : Instr) (s : State) : ∃ t, exec i s = .next t ∧ ExecEnds s i t := by
  cases i with
  | nop => exact ⟨_, rfl, .movedOn s (.nothing _) rfl⟩
  | hlt => exact ⟨_, rfl, .halted rfl⟩
  | add a b c | sub a b c | xor a b c | xno a b c | ior a b c | nor a b c | and a b c | nan a b c | rsh a b c =>
    exact ⟨_, rfl, aluStep_ends _ s _ a b c rfl rfl rfl⟩
  | adi reg imm8 =>
    refine ⟨_, rfl, .movedOn _ ?_ rfl⟩
    split
    · next hcfg => exact .registerAndFlags _ reg _ _ _ rfl (.inr ⟨hcfg, reg, imm8, rfl⟩)
    · exact .register _ reg _ rfl
  | ldi reg imm8 | pag reg => exact ⟨_, rfl, .movedOn _ (.register _ reg _ rfl) rfl⟩
  | jmp target => exact ⟨_, rfl, .wentTo s target (.nothing _)⟩
  | beq target | bne target | bgt target | blt target =>
    exact ⟨_, rfl, branch_ends _ s _ target rfl⟩
  | cal target => exact ⟨_, rfl, .wentTo _ target (.push target)⟩
  | ret =>
    rcases execRet_cases s with ⟨-, h⟩ | ⟨-, h⟩
    · exact ⟨_, h, .movedOn s (.nothing _) rfl⟩
    · exact ⟨_, h, .wentTo _ _ .pop⟩
  | rea a imm3 c =>
    rcases execRea_cases a imm3 c s with ⟨addr, -, h⟩ | ⟨ha, h⟩
    · exact ⟨_, h, .movedOn _ (.register _ c _ rfl) rfl⟩
    · exact ⟨_, h, .faulted _ (.rea a imm3 c ha)⟩
  | sto a imm3 c =>
    rcases execSto_cases a imm3 c s with ⟨addr, ha, h⟩ | ⟨ha, h⟩
    · exact ⟨_, h, .movedOn _ (.byte a imm3 c addr ha) rfl⟩
    · exact ⟨_, h, .faulted _ (.sto a imm3 c ha)⟩
  | gpi reg port =>
    rcases execGpi_cases reg port s with ⟨v, hv, h⟩ | ⟨hn, h⟩
    · exact ⟨_, h, .movedOn _ (.input reg port v hv) rfl⟩
    · exact ⟨_, h, .waited reg port rfl hn⟩
  | gpo reg port => exact ⟨_, rfl, .movedOn _ (.output reg port) rfl⟩
  | bel => exact ⟨_, rfl, .movedOn _ .bell rfl⟩
  | pas imm3 reg =>
    rcases execPas_cases imm3 reg s with ⟨p, -, h⟩ | ⟨hp, h⟩
    · exact ⟨_, h, .movedOn _ (.page imm3 reg p) rfl⟩
    · exact ⟨_, h, .faulted _ (.pas imm3 reg hp)⟩

/-- The inversion of `exec`: a next state is one of the ways of `ExecEnds`. -/
theorem ends_of_exec {i : Instr} {s t : State} (h : exec i s = .next t) : ExecEnds s i t := by
  obtain ⟨t', ht', he⟩ := exec_ends i s
  cases ht'.symm.trans h
  exact he

/-! ### What an instruction writes, part by part -/

section
variable {s t u : State} {i : Instr}

theorem ExecWrites.frame (h : ExecWrites s i u) :
    u.pc = s.pc ∧ u.run = s.run ∧ u.ir = s.ir ∧ u.cfg = s.cfg ∧ u.host = s.host := by
  cases h <;> exact ⟨rfl, rfl, rfl, rfl, rfl⟩

theorem ExecWrites.readReg_eq_or (h : ExecWrites s i u) (r : Reg) :
    u.readReg r = s.readReg r ∨ destination i = some r ∧ r ≠ .r0 := by
  have written (s' : State) (c : Reg) (v : Byte) (hd : destination i = some c) :
      (s'.writeReg c v).readReg r = s'.readReg r ∨ destination i = some r ∧ r ≠ .r0 := by
    rw [State.readReg_writeReg]
    split
    · next hr => exact .inr ⟨hr.1 ▸ hd, hr.2⟩
    · exact .inl rfl
  cases h with
  | register _ c v hd | registerAndFlags _ c v _ _ hd => exact written s c v hd
  | input reg port v => exact written (s.emit _) reg v rfl
  | nothing | page | push | pop | byte | output | bell => exact .inl rfl

theorem ExecWrites.flags_eq_or (h : ExecWrites s i u) :
    u.carry = s.carry ∧ u.zero = s.zero ∨ MayWriteFlags s i := by
  cases h with
  | registerAndFlags _ _ _ _ _ _ hf => exact .inr hf
  | nothing | register | page | push | pop | byte | input | output | bell => exact .inl ⟨rfl, rfl⟩

theorem ExecWrites.page_eq_or (h : ExecWrites s i u) : u.page = s.page ∨ ∃ imm3 reg, i = .pas imm3 reg := by
  cases h with
  | page imm3 reg => exact .inr ⟨imm3, reg, rfl⟩
  | nothing | register | registerAndFlags | push | pop | byte | input | output | bell => exact .inl rfl

theorem ExecWrites.stack_eq_or (h : ExecWrites s i u) :
    u.stack = s.stack ∨ i = .ret ∨ ∃ target, i = .cal target := by
  cases h with
  | push target => exact .inr (.inr ⟨target, rfl⟩)
  | pop => exact .inr (.inl rfl)
  | nothing | register | registerAndFlags | page | byte | input | output | bell => exact .inl rfl

/-- Memory is written by STO alone, one byte at its effective address. -/
theorem ExecWrites.mem_eq_or (h : ExecWrites s i u) :
    u.mem = s.mem ∨ ∃ a imm3 c addr, i = .sto a imm3 c ∧ s.effectiveAddr a imm3 = some addr ∧
      u.mem = s.mem.write addr (s.readReg c) := by
  cases h with
  | byte a imm3 c addr ha => exact .inr ⟨a, imm3, c, addr, rfl, ha, rfl⟩
  | nothing | register | registerAndFlags | page | push | pop | input | output | bell => exact .inl rfl

/-- The trace takes at most the one event of a GPI, GPO or BEL (R38). -/
theorem ExecWrites.trace_eq_or (h : ExecWrites s i u) :
    u.trace = s.trace ∨
    (∃ reg port v, i = .gpi reg port ∧ s.host.answer port s.trace = some v ∧
      u.trace = s.trace ++ [.inEvent port v]) ∨
    (∃ reg port, i = .gpo reg port ∧ u.trace = s.trace ++ [.outEvent port (s.readReg reg)]) ∨
    (i = .bel ∧ u.trace = s.trace ++ [.bellEvent]) := by
  cases h with
  | input reg port v hv => exact .inr (.inl ⟨reg, port, v, rfl, hv, rfl⟩)
  | output reg port => exact .inr (.inr (.inl ⟨reg, port, rfl, rfl⟩))
  | bell => exact .inr (.inr (.inr ⟨rfl, rfl⟩))
  | nothing | register | registerAndFlags | page | push | pop | byte => exact .inl rfl

theorem ExecWrites.readByte_eq_or (h : ExecWrites s i u) (b : Addr) :
    u.readByte b = s.readByte b ∨ ∃ a imm3 c, i = .sto a imm3 c ∧ s.effectiveAddr a imm3 = some b := by
  simp only [State.readByte]
  rcases h.mem_eq_or with hm | ⟨a, imm3, c, addr, hi, ha, hm⟩
  · exact .inl (by rw [hm])
  · by_cases hb : b = addr
    · exact .inr ⟨a, imm3, c, hi, hb ▸ ha⟩
    · exact .inl (by rw [hm, Memory.read_write_other _ _ _ _ hb])

theorem ExecWrites.mem_wf (h : ExecWrites s i u) (hs : s.mem.wf) : u.mem.wf := by
  rcases h.mem_eq_or with hm | ⟨_, _, _, addr, -, -, hm⟩
  · exact hm ▸ hs
  · exact hm ▸ Memory.wf_write _ addr _ hs

/-! ### What an instruction does to the whole state -/

/-- However an instruction ends, the next state is what it wrote, but for the pc and the run state. -/
theorem ExecEnds.writes (h : ExecEnds s i t) :
    ∃ u, ExecWrites s i u ∧ t = { u with pc := t.pc, run := t.run } := by
  cases h with
  | movedOn u hw => exact ⟨u, hw, rfl⟩
  | wentTo u _ hw => exact ⟨u, hw, rfl⟩
  | faulted | halted | waited => exact ⟨s, .nothing i, rfl⟩

/-- The move to the next instruction, from below the end (R27, R28). -/
theorem advance_pc_le {u : State} (hp : u.pc.toNat < 1024) :
    u.advance.pc.toNat ≤ 1024 ∧
      (u.advance.pc.toNat = 1024 → u.advance.run = .halted ∧ u.pc.toNat = 1023) := by
  have hpc : u.advance.pc.toNat = u.pc.toNat + 1 := by
    rw [State.advance_pc]
    bv_omega
  refine ⟨by omega, fun hend => ⟨?_, by omega⟩⟩
  rw [State.advance_run, if_pos]
  exact BitVec.eq_of_toNat_eq hend

/-- No instruction passes the end of the address space, and only one that moves on from 1023 reaches it (R28). -/
theorem ExecEnds.pc_le (h : ExecEnds s i t) (hp : s.pc.toNat < 1024) :
    t.pc.toNat ≤ 1024 ∧
      (t.pc.toNat = 1024 → t.run = .halted ∧ s.pc.toNat = 1023 ∧ alwaysTransfers i = false) := by
  cases h with
  | movedOn u hw hi =>
    obtain ⟨hpc, -⟩ := hw.frame
    obtain ⟨hle, hend⟩ := advance_pc_le (hpc ▸ hp)
    exact ⟨hle, fun e => ⟨(hend e).1, hpc ▸ (hend e).2, hi⟩⟩
  | wentTo u target =>
    have htarget : (target.setWidth 11).toNat < 1024 := by bv_omega
    rw [State.jumpTo_pc]
    exact ⟨by omega, fun e => by omega⟩
  | faulted | halted | waited => exact ⟨hp.le, fun e => absurd e hp.ne⟩

/-- The core becomes Halted by HLT or at the end of the address space only (R28, R201). -/
theorem ExecEnds.halted_cases (h : ExecEnds s i t) (hr : t.run = .halted) :
    s.run = .halted ∨ i = .hlt ∨ t.pc = 1024#11 := by
  cases h with
  | movedOn u hw =>
    obtain ⟨-, hrun, -⟩ := hw.frame
    rw [State.advance_run] at hr
    split at hr
    · next hend => exact .inr (.inr hend)
    · exact .inl (hrun ▸ hr)
  | wentTo u target hw =>
    obtain ⟨-, hrun, -⟩ := hw.frame
    exact .inl (hrun ▸ hr)
  | faulted => cases hr
  | halted hi => exact .inr (.inl hi)
  | waited => exact .inl hr

end

/-! ### The cases of a step -/

/-- How a cycle ends: the fetched instruction's way, or the fault of a word that is no instruction (R83, R84). -/
inductive StepEnds (s : State) : State → Prop
  | executed (i : Instr) (t : State) (hf : s.fetched = .instr i) (he : ExecEnds s.latch i t) : StepEnds s t
  | rejected (reason : FaultReason) (hf : ∀ i, s.fetched ≠ .instr i) : StepEnds s (s.latch.raiseFault reason)

/-- A cycle fetches, decodes and runs (R26). -/
theorem step_of_cycles {s : State} (h : s.Cycles) : step s = runDecoded s.fetched s.latch := by
  obtain ⟨hrun, hpc⟩ := h
  have hlt : s.pc < 1024#11 := hpc
  simp [step, cycle, hrun, hlt, State.fetched]

theorem step_of_fetched_instr {s : State} {i : Instr} (h : s.Cycles) (hf : s.fetched = .instr i) :
    step s = exec i s.latch := by
  rw [step_of_cycles h, hf]
  rfl

theorem step_of_halted {s : State} (h : s.run = .halted) : step s = .fault .halted := by
  simp [step, cycle, h]

theorem step_of_faulted {s : State} {reason : FaultReason} (h : s.run = .faulted reason) :
    step s = .fault (.faulted reason) := by
  simp [step, cycle, h]

/-- Only a Running core below the end has a next state (R26, R35). -/
theorem cycles_of_step {s t : State} (h : step s = .next t) : s.Cycles := by
  rcases step_cases s with ⟨hrun, hpc, -⟩ | ⟨-, -, hs⟩ | ⟨-, hs⟩ | ⟨_, -, hs⟩
  · exact ⟨hrun, hpc⟩
  all_goals cases hs.symm.trans h

/-- Every cycle has a next state, in one of the ways of `StepEnds`. -/
theorem step_ends {s : State} (h : s.Cycles) : ∃ t, step s = .next t ∧ StepEnds s t := by
  rw [step_of_cycles h]
  rcases runDecoded_cases s.fetched s.latch with ⟨i, hf, hr⟩ | ⟨_, hf, hr⟩ | ⟨_, _, hf, hr⟩
  · obtain ⟨t, ht, he⟩ := exec_ends i s.latch
    exact ⟨t, hr.trans ht, .executed i t hf he⟩
  · exact ⟨_, hr, .rejected _ (by simp [hf])⟩
  · exact ⟨_, hr, .rejected _ (by simp [hf])⟩

/-- The inversion of `step`: a next state is one of the ways of `StepEnds`. -/
theorem ends_of_step {s t : State} (h : step s = .next t) : StepEnds s t := by
  obtain ⟨t', ht', he⟩ := step_ends (cycles_of_step h)
  cases ht'.symm.trans h
  exact he

section
variable {s t : State}

/-- After a step IR holds the fetched word (R37). -/
theorem StepEnds.ir_eq (h : StepEnds s t) : t.ir = s.mem.fetch16 s.pc := by
  cases h with
  | executed i t _ he =>
    obtain ⟨u, hw, ht⟩ := he.writes
    obtain ⟨-, -, hir, -⟩ := hw.frame
    rw [ht]
    exact hir
  | rejected => rfl

theorem StepEnds.mem_wf (h : StepEnds s t) (hs : s.mem.wf) : t.mem.wf := by
  cases h with
  | executed i t _ he =>
    obtain ⟨u, hw, ht⟩ := he.writes
    rw [ht]
    exact hw.mem_wf hs
  | rejected => exact hs

/-- No step passes the end of the address space, and only an instruction at 1023 that moves on reaches it (R28). -/
theorem StepEnds.pc_le (h : StepEnds s t) (hp : s.pc.toNat < 1024) :
    t.pc.toNat ≤ 1024 ∧ (t.pc.toNat = 1024 →
      t.run = .halted ∧ s.pc.toNat = 1023 ∧ ∀ i, s.fetched = .instr i → alwaysTransfers i = false) := by
  cases h with
  | executed i t hf he =>
    obtain ⟨hle, hend⟩ := he.pc_le hp
    refine ⟨hle, fun e => ?_⟩
    obtain ⟨hrun, hpc, hi⟩ := hend e
    exact ⟨hrun, hpc, fun j hj => Decoded.instr.inj (hf.symm.trans hj) ▸ hi⟩
  | rejected => exact ⟨hp.le, fun e => absurd e hp.ne⟩

end

end Sys2Proof.Machine
end

section
/-!
PROOFS. Runs: what holds of a state that every step keeps, and what a stopped core does. Then the invariant, and
the image in memory at the start of a run.
-/

namespace Sys2Proof.Machine

/-! ### Runs -/

/-- What every step keeps, a run keeps. -/
theorem runCycles_keeps {P : State → Prop} (hstep : ∀ s t, P s → step s = .next t → P t) (k : Nat) {s : State}
    (hs : P s) : P (runCycles k s) := by
  induction k generalizing s with
  | zero => exact hs
  | succ k ih =>
    cases h : step s with
    | next t => rw [runCycles_succ_of_next k s t h]; exact ih (hstep s t hs h)
    | fault | refused => simpa [runCycles, h] using hs

/-- A core without a cycle stays as it is. -/
theorem runCycles_of_not_cycles {s : State} (h : ¬ s.Cycles) (k : Nat) : runCycles k s = s := by
  cases k with
  | zero => rfl
  | succ k =>
    cases hs : step s with
    | next t => exact absurd (cycles_of_step hs) h
    | fault | refused => simp [runCycles, hs]

theorem runCycles_add (k n : Nat) (s : State) : runCycles (k + n) s = runCycles n (runCycles k s) := by
  induction k generalizing s with
  | zero => rw [Nat.zero_add]; rfl
  | succ k ih =>
    by_cases h : s.Cycles
    · obtain ⟨t, ht, -⟩ := step_ends h
      rw [Nat.add_right_comm, runCycles_succ_of_next _ s t ht, runCycles_succ_of_next _ s t ht, ih]
    · simp [runCycles_of_not_cycles h]

theorem ending_eq_fault_iff (s : State) (reason : FaultReason) :
    s.ending = some (.fault reason) ↔ s.run = .faulted reason := by
  cases h : s.run with
  | halted => by_cases hp : s.pc = 1024#11 <;> simp [State.ending, h, hp]
  | running | faulted => simp [State.ending, h]

/-! ### The invariant -/

/-- A Running core with the invariant has a cycle. -/
theorem State.Inv.cycles {s : State} (h : s.Inv) (hr : s.run = .running) : s.Cycles := by
  refine ⟨hr, lt_of_le_of_ne h.pc_le fun hend => ?_⟩
  cases hr.symm.trans (h.end_halted hend)

theorem State.Inv.of_step {s t : State} (hs : s.Inv) (h : step s = .next t) : t.Inv := by
  have he := ends_of_step h
  obtain ⟨-, hp⟩ := cycles_of_step h
  obtain ⟨hle, hend⟩ := he.pc_le hp
  exact ⟨he.mem_wf hs.mem_wf, hle, fun e => (hend e).1⟩

/-! ### The image in memory -/

/-- Memory loaded from `k` on holds the image's bytes there, and 0 beyond them (R61, R301). -/
theorem lookup_memoryFrom (image : List Byte) (k i : Nat) :
    Memory.lookup (memoryFrom k image) (k + i) = image[i]?.getD Memory.unlisted := by
  induction image generalizing k i with
  | nil => rfl
  | cons b bs ih =>
    cases i with
    | zero =>
      simp only [memoryFrom]
      split
      · next hb =>
        have below : ∀ c ∈ memoryFrom (k + 1) bs, k < c.1 := fun c hc => (memoryFrom_keys bs (k + 1) c hc).1
        simpa [hb] using Memory.lookup_of_lt _ k below
      · simp [Memory.lookup_cons]
    | succ i =>
      have hrest : Memory.lookup (memoryFrom (k + 1) bs) (k + (i + 1)) = bs[i]?.getD Memory.unlisted := by
        rw [← ih (k + 1) i, Nat.add_right_comm k 1 i, Nat.add_assoc]
      simp only [memoryFrom]
      split
      · exact hrest
      · rw [Memory.lookup_cons, if_neg (by omega)]
        exact hrest

/-- The state a run starts in (R300, R301). -/
def State.booted (cfg : Config) (host : HostInput) (image : List Byte) : State :=
  { State.reset with mem := memoryFrom 0 image, cfg := cfg, host := host }

theorem boot_of_length_le {image : List Byte} (cfg : Config) (host : HostInput) (h : image.length ≤ 2048) :
    State.boot cfg host image = some (State.booted cfg host image) := if_pos h

theorem boot_of_lt_length {image : List Byte} (cfg : Config) (host : HostInput) (h : 2048 < image.length) :
    State.boot cfg host image = none := if_neg (Nat.not_le.2 h)

theorem booted_inv {image : List Byte} (cfg : Config) (host : HostInput) (h : image.length ≤ 2048) :
    (State.booted cfg host image).Inv where
  mem_wf := Memory.wf_memoryFrom image 0 (by omega)
  pc_le := Nat.zero_le _
  end_halted := fun e => absurd e (show (0#11).toNat ≠ 1024 by decide)

theorem booted_readByte (cfg : Config) (host : HostInput) (image : List Byte) (a : Addr) :
    (State.booted cfg host image).readByte a = image[a.toNat]?.getD 0#8 := by
  have h := lookup_memoryFrom image 0 a.toNat
  rw [Nat.zero_add] at h
  exact h

end Sys2Proof.Machine
end

section
/-!
PROOFS. The statements about the state: the step, the invariant, reset and boot, who writes what, and the stack.
-/

namespace Sys2Proof.Machine

/-! ### The step -/

/-- Settles O6. -/
theorem stepRunsDecodedInstruction : Obligations.StepRunsDecodedInstruction :=
  fun _ _ hs hf => step_of_fetched_instr hs hf

/-- Settles O7: `step_ends` and `cycles_of_step`. -/
theorem stepAnswersNextExactlyWhenRunning : Obligations.StepAnswersNextExactlyWhenRunning := by
  intro s
  constructor
  · rintro ⟨t, h⟩
    exact cycles_of_step h
  · intro h
    obtain ⟨t, ht, -⟩ := step_ends h
    exact ⟨t, ht⟩

/-- Settles O8: the further cycles start from a state without a cycle. -/
theorem stoppedCoreStays : Obligations.StoppedCoreStays := by
  refine ⟨fun s => step_of_halted, fun s reason => step_of_faulted, fun s k n hrun => ?_⟩
  rw [runCycles_add]
  exact runCycles_of_not_cycles (fun h => hrun h.1) n

/-- Settles O9. -/
theorem endOfAddressSpaceHalts : Obligations.EndOfAddressSpaceHalts := by
  intro s t hs h
  obtain ⟨hle, hend⟩ := (ends_of_step h).pc_le hs.2
  refine ⟨hle, fun e => ?_⟩
  obtain ⟨hrun, hpc, hi⟩ := hend e
  exact ⟨hrun, hpc, fun target => ⟨fun hf => (nomatch hi _ hf), fun hf => (nomatch hi _ hf)⟩⟩

/-- Settles O10: the fetch overwrites IR before anything reads the state. -/
theorem instructionRegisterIsNeverRead : Obligations.InstructionRegisterIsNeverRead := by
  refine ⟨fun s w => ?_, fun s t h => (ends_of_step h).ir_eq⟩
  have hlatch : State.latch { s with ir := w } = s.latch := rfl
  simp only [step, cycle, hlatch]

/-! ### The invariant, reset and boot -/

/-- Settles O11: memory is empty and the pc is 0. -/
theorem invHoldsAtReset : Obligations.InvHoldsAtReset where
  mem_wf := Memory.wf_nil
  pc_le := Nat.zero_le _
  end_halted := fun e => absurd e (by decide)

/-- Settles O12. -/
theorem stepKeepsInv : Obligations.StepKeepsInv := fun _ _ hs h => hs.of_step h

/-- Settles O13. -/
theorem bootLoadsImage : Obligations.BootLoadsImage := by
  intro cfg host image
  refine ⟨fun hlen => ?_, boot_of_lt_length cfg host⟩
  refine ⟨_, boot_of_length_le cfg host hlen, booted_inv cfg host hlen, rfl, rfl, Regs.get_zeroed, rfl, rfl, rfl,
    fun i => ?_, rfl, rfl, rfl, fun a ha => ?_, fun a ha => ?_⟩
  · simp [State.booted, State.reset]
  · simp [booted_readByte, ha]
  · simp [booted_readByte, ha]

/-- Settles O14. -/
theorem resetState : Obligations.ResetState := by
  refine ⟨rfl, rfl, Regs.get_zeroed, rfl, rfl, rfl, fun i => ?_, fun a => rfl, rfl⟩
  simp [State.reset]

/-- Settles O15: the invariant holds at the start, and every step keeps it. -/
theorem bootedRunNeverLosesItsPc : Obligations.BootedRunNeverLosesItsPc := by
  intro cfg host image s k hboot
  have hinv : s.Inv := by
    rcases Nat.lt_or_ge 2048 image.length with hlen | hlen
    · cases (boot_of_lt_length cfg host hlen).symm.trans hboot
    · cases (boot_of_length_le cfg host hlen).symm.trans hboot
      exact booted_inv cfg host hlen
  have hrun : (runCycles k s).Inv := runCycles_keeps (fun _ _ hs h => hs.of_step h) k hinv
  exact ⟨hrun, hrun.cycles⟩

/-! ### A run over zero memory -/

/-- Every byte of memory reads 0. -/
def State.MemoryIsZero (s : State) : Prop := ∀ a, s.readByte a = 0#8

/-- The word of two zero bytes is NOP under either policy (R200). -/
theorem State.MemoryIsZero.fetched {s : State} (h : s.MemoryIsZero) : s.fetched = .instr .nop := by
  have hword : s.mem.fetch16 s.pc = 0#16 := by
    rw [Memory.fetch16, show s.mem.read (lowByteAddr s.pc) = 0#8 from h _,
      show s.mem.read (highByteAddr s.pc) = 0#8 from h _]
    rfl
  rw [State.fetched, hword]
  cases s.cfg.reservedBits <;> rfl

theorem State.MemoryIsZero.step_eq {s : State} (h : s.MemoryIsZero) (hs : s.Cycles) :
    step s = .next s.latch.advance := step_of_fetched_instr hs h.fetched

/-- `n` cycles below the end, a run over zero memory is at the end, Halted, its registers as before. -/
theorem State.MemoryIsZero.runCycles_to_end (n : Nat) {s : State} (h : s.MemoryIsZero) (hs : s.Cycles)
    (hn : s.pc.toNat + n = 1024) :
    (runCycles n s).pc = 1024#11 ∧ (runCycles n s).run = .halted ∧ (runCycles n s).regs = s.regs := by
  induction n generalizing s with
  | zero => exact absurd hn hs.2.ne
  | succ n ih =>
    obtain ⟨hrun, hlt⟩ := hs
    rw [runCycles_succ_of_next n s _ (h.step_eq ⟨hrun, hlt⟩)]
    have hpc : s.latch.advance.pc.toNat = s.pc.toNat + 1 := by
      simp only [State.advance_pc, State.latch_pc]
      bv_omega
    by_cases hend : s.latch.advance.pc = 1024#11
    · have hlast : s.pc.toNat + 1 = 1024 := hpc.symm.trans (congrArg BitVec.toNat hend)
      obtain rfl : n = 0 := by omega
      exact ⟨hend, if_pos hend, rfl⟩
    · have hne : s.latch.advance.pc.toNat ≠ 1024 := fun e => hend (BitVec.eq_of_toNat_eq e)
      have hnext : s.latch.advance.Cycles := ⟨(if_neg hend).trans hrun, by omega⟩
      exact ih h hnext (by omega)

/-- A NOP moves on or halts, so a run over zero memory stays without a fault. -/
theorem State.MemoryIsZero.safe {s : State} (h : s.MemoryIsZero) (hs : s.Cycles) : s.Safe := by
  have kept : ∀ u t, (u.MemoryIsZero ∧ ∀ reason, u.run ≠ .faulted reason) → step u = .next t →
      t.MemoryIsZero ∧ ∀ reason, t.run ≠ .faulted reason := by
    rintro u t ⟨hu, hrun⟩ hstep
    cases (hu.step_eq (cycles_of_step hstep)).symm.trans hstep
    refine ⟨hu, fun reason => ?_⟩
    rw [State.advance_run]
    split
    · simp
    · exact hrun reason
  intro k reason hend
  have hnow := runCycles_keeps kept k ⟨h, by simp [hs.1]⟩
  exact hnow.2 reason ((ending_eq_fault_iff _ reason).1 hend)

/-- Settles O16, by induction on the distance to the end. -/
theorem zeroMemoryRunsToTheEnd : Obligations.ZeroMemoryRunsToTheEnd := by
  intro s hs hmem
  have hzero : s.MemoryIsZero := hmem
  obtain ⟨hpc, hrun, hregs⟩ := hzero.runCycles_to_end (1024 - s.pc.toNat) hs (by have := hs.2; omega)
  refine ⟨by simp [State.ending, hrun, hpc], fun r => ?_, hzero.safe hs⟩
  rw [State.readReg, hregs, State.readReg]

/-! ### Who writes what -/

/-- Settles O20: each part is one lemma about `ExecWrites`; the pc update touches only the pc and the run state. -/
theorem onlyTheNamedPartsChange : Obligations.OnlyTheNamedPartsChange := by
  intro i s t h
  have he := ends_of_exec h
  obtain ⟨u, hw, ht⟩ := he.writes
  obtain ⟨-, -, hir, hcfg, hhost⟩ := hw.frame
  have hhalt := he.halted_cases
  rw [ht]
  refine ⟨fun r => (hw.readReg_eq_or r).resolve_left, ?_, hw.page_eq_or.resolve_left,
    hw.stack_eq_or.resolve_left, fun b => (hw.readByte_eq_or b).resolve_left, ?_, hhalt, hir, hcfg, hhost⟩
  · intro hne
    exact hw.flags_eq_or.resolve_left fun ⟨hc, hz⟩ => hne.elim (· hc) (· hz)
  · intro hne
    rcases hw.trace_eq_or.resolve_left hne with ⟨reg, port, -, hi, -⟩ | ⟨reg, port, hi, -⟩ | ⟨hi, -⟩
    · exact .inr (.inl ⟨reg, port, hi⟩)
    · exact .inr (.inr ⟨reg, port, hi⟩)
    · exact .inl hi

/-- Settles O21: the fetched instruction's event, and none from a word that is no instruction. -/
theorem traceGrowsByTheInstructionsEvent : Obligations.TraceGrowsByTheInstructionsEvent := by
  intro s t h
  cases ends_of_step h with
  | executed i t hf he =>
    obtain ⟨u, hw, ht⟩ := he.writes
    rw [ht]
    rcases hw.trace_eq_or with hu | ⟨reg, port, v, rfl, hv, hu⟩ | ⟨reg, port, rfl, hu⟩ | ⟨rfl, hu⟩
    · exact .inl hu
    · exact .inr (.inl ⟨reg, port, v, hf, hv, hu⟩)
    · exact .inr (.inr (.inl ⟨reg, port, hf, hu⟩))
    · exact .inr (.inr (.inr ⟨hf, hu⟩))
  | rejected => exact .inl rfl

/-! ### The stack -/

theorem CallStack.toList_push (stk : CallStack) (v : Index) : (stk.push v).toList = v :: stk.toList.take 15 := by
  simp [CallStack.push]

/-- After any pushes: the pushed values, newest on top, above what was there, cut to 16. -/
theorem CallStack.toList_foldl_push (stk : CallStack) (vs : List Index) :
    (vs.foldl CallStack.push stk).toList = (vs.reverse ++ stk.toList).take 16 := by
  induction vs using List.reverseRecOn with
  | nil => simp
  | append_singleton vs v ih => simp [CallStack.toList_push, ih, List.take_take]

/-- Settles O39: 16 pushed values leave no room for what was there. -/
theorem stackHoldsTheLastSixteen : Obligations.StackHoldsTheLastSixteen := by
  intro stk vs hlen
  rw [CallStack.toList_foldl_push, List.take_append_of_le_length (by simpa using hlen)]

end Sys2Proof.Machine
end

section
/-!
PROOFS. The fetch: where its two bytes lie, the number it reads, and what a store to one of them does to it
(20_memory R51, R53, R65).
-/

namespace Sys2Proof.Machine

/-! ### The two bytes of a word -/

theorem lowByteAddr_toNat {pc : Pc} (h : pc.toNat < 1024) : (lowByteAddr pc).toNat = 2 * pc.toNat := by
  rw [lowByteAddr, BitVec.toNat_shiftLeft, Nat.shiftLeft_eq]
  omega

theorem highByteAddr_eq (pc : Pc) : highByteAddr pc = lowByteAddr pc + 1#11 := rfl

/-- An even address below 2048 leaves room for the byte above it. -/
theorem highByteAddr_toNat {pc : Pc} (h : pc.toNat < 1024) : (highByteAddr pc).toNat = 2 * pc.toNat + 1 := by
  rw [highByteAddr_eq, BitVec.toNat_add, lowByteAddr_toNat h, BitVec.toNat_ofNat]
  omega

theorem wordOfBytes_toNat (lo hi : Byte) : (wordOfBytes lo hi).toNat = lo.toNat + 256 * hi.toNat := by
  rw [wordOfBytes, BitVec.toNat_append, ← Nat.shiftLeft_add_eq_or_of_lt lo.isLt, Nat.shiftLeft_eq]
  omega

/-! ### A store to one of the two bytes -/

/-- A write to the low byte leaves the word's high byte. -/
theorem Memory.fetch16_write_low (m : Memory) (pc : Pc) (v : Byte) (hm : m.wf) :
    (m.write (lowByteAddr pc) v).fetch16 pc = wordOfBytes v (m.read (highByteAddr pc)) := by
  rw [Memory.fetch16, Memory.read_write_same _ _ _ hm,
    Memory.read_write_other _ _ _ _ (lowByteAddr_ne_highByteAddr pc).symm]

/-- A write to the high byte leaves the word's low byte. -/
theorem Memory.fetch16_write_high (m : Memory) (pc : Pc) (v : Byte) (hm : m.wf) :
    (m.write (highByteAddr pc) v).fetch16 pc = wordOfBytes (m.read (lowByteAddr pc)) v := by
  rw [Memory.fetch16, Memory.read_write_same _ _ _ hm,
    Memory.read_write_other _ _ _ _ (lowByteAddr_ne_highByteAddr pc)]

/-- STO with an effective address writes the byte there and moves on (R181). -/
theorem exec_sto_of_effectiveAddr {a : Reg} {imm3 : BitVec 3} {s : State} {addr : Addr}
    (h : s.effectiveAddr a imm3 = some addr) (c : Reg) :
    exec (.sto a imm3 c) s = .next (s.writeByte addr (s.readReg c)).advance := by
  rcases execSto_cases a imm3 c s with ⟨addr', h', hexec⟩ | ⟨hnone, -⟩
  · cases h.symm.trans h'
    exact hexec
  · cases h.symm.trans hnone

/-! ### The statements -/

/-- Settles O5: the bytes lie at `2*pc` and `2*pc + 1`, and address `a` belongs to index `a / 2`. -/
theorem fetchReadsTwoBytesLowFirst : Obligations.FetchReadsTwoBytesLowFirst := by
  constructor
  · intro s page hpc
    exact ⟨lowByteAddr s.pc, highByteAddr s.pc, lowByteAddr_toNat hpc, highByteAddr_toNat hpc, wordOfBytes_toNat _ _⟩
  · intro a
    have hindex : (BitVec.ofNat 11 (a.toNat / 2)).toNat = a.toNat / 2 := by
      rw [BitVec.toNat_ofNat]
      omega
    exact ⟨BitVec.ofNat 11 (a.toNat / 2), by omega, by omega⟩

/-- Settles O44: the next fetch reads the memory the store wrote, one of its two bytes the stored one. -/
theorem storeIsSeenByTheNextFetch : Obligations.StoreIsSeenByTheNextFetch := by
  intro a imm3 c s addr hwf haddr
  refine ⟨_, exec_sto_of_effectiveAddr haddr c, ?_⟩
  simp only [State.latch_ir, State.advance_mem, State.advance_pc, State.writeByte_mem, State.writeByte_pc]
  constructor
  · rintro rfl
    exact Memory.fetch16_write_low s.mem _ _ hwf
  · rintro rfl
    exact Memory.fetch16_write_high s.mem _ _ hwf

end Sys2Proof.Machine
end

section
/-!
PROOFS. The encoding (30_encoding R70 to R94). `Instr.operandsOfField` reads a format's operands from an operand
field; `instrOf_reads` says what instruction the opcode table makes of a field, and the round trips follow.
-/

namespace Sys2Proof

/-! ### The encoder -/

theorem Instr.encodes (i : Instr) : Laws.Encodes.Statement i := by
  cases i with
  | nop => exact Laws.Encodes.nop
  | hlt => exact Laws.Encodes.hlt
  | add => exact Laws.Encodes.add _ _ _
  | adi => exact Laws.Encodes.adi _ _
  | sub => exact Laws.Encodes.sub _ _ _
  | xor => exact Laws.Encodes.xor _ _ _
  | xno => exact Laws.Encodes.xno _ _ _
  | ior => exact Laws.Encodes.ior _ _ _
  | nor => exact Laws.Encodes.nor _ _ _
  | and => exact Laws.Encodes.and _ _ _
  | nan => exact Laws.Encodes.nan _ _ _
  | rsh => exact Laws.Encodes.rsh _ _ _
  | ldi => exact Laws.Encodes.ldi _ _
  | jmp => exact Laws.Encodes.jmp _
  | beq => exact Laws.Encodes.beq _
  | bne => exact Laws.Encodes.bne _
  | bgt => exact Laws.Encodes.bgt _
  | blt => exact Laws.Encodes.blt _
  | cal => exact Laws.Encodes.cal _
  | ret => exact Laws.Encodes.ret
  | rea => exact Laws.Encodes.rea _ _ _
  | sto => exact Laws.Encodes.sto _ _ _
  | gpi => exact Laws.Encodes.gpi _ _
  | gpo => exact Laws.Encodes.gpo _ _
  | bel => exact Laws.Encodes.bel
  | pas => exact Laws.Encodes.pas _ _
  | pag => exact Laws.Encodes.pag _

@[simp] theorem Instr.formatOf_opcode (i : Instr) : formatOf i.opcode = some i.format := i.encodes.1

@[simp] theorem Instr.field_reserved (i : Instr) : i.field &&& reservedMask i.format = 0#11 := i.encodes.2

@[simp] theorem opcodeField_encode (i : Instr) : opcodeField (encode i) = i.opcode := opcodeField_append _ _

@[simp] theorem operandField_encode (i : Instr) : operandField (encode i) = i.field := operandField_append _ _

/-! ### The layouts as numbers (R87) -/

@[simp] theorem Reg.toNat_bits (r : Reg) : r.bits.toNat = r.number := by cases r <;> rfl

@[simp] theorem Reg.number_ofBits (b : BitVec 3) : (Reg.ofBits b).number = b.toNat := by
  rw [← Reg.toNat_bits, Reg.bits_ofBits]

theorem layoutAlu_toNat (a b c : BitVec 3) :
    (layoutAlu a b c).toNat = a.toNat <<< 6 ||| b.toNat <<< 3 ||| c.toNat := by
  revert a b c; decide +kernel

theorem layoutImm8ToReg_toNat (imm8 : BitVec 8) (reg : BitVec 3) :
    (layoutImm8ToReg imm8 reg).toNat = imm8.toNat <<< 3 ||| reg.toNat :=
  BitVec.toNat_append _ _

theorem layoutImm10_toNat (imm10 : BitVec 10) : (layoutImm10 imm10).toNat = imm10.toNat <<< 1 :=
  (BitVec.toNat_append _ _).trans (by simp)

theorem layoutImm3ToReg_toNat (imm3 reg : BitVec 3) :
    (layoutImm3ToReg imm3 reg).toNat = imm3.toNat <<< 3 ||| reg.toNat := by
  revert imm3 reg; decide +kernel

theorem layoutRegToImm3_toNat (reg imm3 : BitVec 3) :
    (layoutRegToImm3 reg imm3).toNat = reg.toNat <<< 6 ||| imm3.toNat <<< 3 := by
  revert reg imm3; decide +kernel

theorem layoutImm3OrReg_toNat (imm3 reg : BitVec 3) :
    (layoutImm3OrReg imm3 reg).toNat = imm3.toNat <<< 8 ||| reg.toNat <<< 3 := by
  revert imm3 reg; decide +kernel

theorem layoutRegOnly_toNat (reg : BitVec 3) : (layoutRegOnly reg).toNat = reg.toNat := by
  revert reg; decide +kernel

/-- The assembler packs an instruction's operands to its operand field. -/
theorem packOperands_operands (i : Instr) : packOperands i.format i.operands = some i.field.toNat := by
  cases i <;>
    simp [Instr.format, Instr.operands, Instr.field, packOperands, layoutAlu_toNat, layoutImm8ToReg_toNat,
      layoutImm10_toNat, layoutImm3ToReg_toNat, layoutRegToImm3_toNat, layoutImm3OrReg_toNat, layoutRegOnly_toNat]

theorem encode_toNat (i : Instr) : (encode i).toNat = i.opcode.toNat <<< 11 ||| i.field.toNat :=
  BitVec.toNat_append _ _

/-- The assembler's Encode agrees with the encoder of instructions, so R93's internal errors do not occur. -/
theorem encodeOperands_operands (i : Instr) : encodeOperands i.opcode i.operands = some (encode i) := by
  have hword : (encode i).toNat < 65536 := (encode i).isLt
  simp only [encodeOperands, Instr.formatOf_opcode, packOperands_operands, ← encode_toNat, if_pos hword,
    BitVec.ofNat_toNat, BitVec.setWidth_eq]

/-! ### The opcode table -/

/-- The operands a format has in an operand field, in the assembler's order (R72 to R79, R91). -/
def Format.operandsOfField : Format → BitVec 11 → List Nat
  | .none, _ => []
  | .alu, f => [(bits86 f).toNat, (bits53 f).toNat, (bits20 f).toNat]
  | .imm8ToReg, f => [(bits20 f).toNat, (bits103 f).toNat]
  | .imm10, f => [(bits101 f).toNat]
  | .imm3ToReg, f => [(bits20 f).toNat, (bits53 f).toNat]
  | .regToImm3, f => [(bits86 f).toNat, (bits53 f).toNat]
  | .imm3OrReg, f => [(bits108 f).toNat, (bits53 f).toNat]
  | .regOnly, f => [(bits20 f).toNat]

/-- `i` is the instruction that opcode `op` of format `fmt` makes of the operand field `f`: it has the field's
operands, and its own field is `f` with the reserved bits cleared (R86). -/
structure Instr.Reads (op : BitVec 5) (fmt : Format) (f : BitVec 11) (i : Instr) : Prop where
  opcode_eq : i.opcode = op
  format_eq : i.format = fmt
  operands_eq : i.operands = fmt.operandsOfField f
  field_eq : i.field = f &&& ~~~reservedMask fmt

@[simp] theorem layoutAlu_bits (f : BitVec 11) : layoutAlu (bits86 f) (bits53 f) (bits20 f) = f &&& ~~~0x600#11 := by
  revert f; decide +kernel

@[simp] theorem layoutImm8ToReg_bits (f : BitVec 11) : layoutImm8ToReg (bits103 f) (bits20 f) = f &&& ~~~0x000#11 := by
  revert f; decide +kernel

@[simp] theorem layoutImm10_bits (f : BitVec 11) : layoutImm10 (bits101 f) = f &&& ~~~0x001#11 := by
  revert f; decide +kernel

@[simp] theorem layoutImm3ToReg_bits (f : BitVec 11) : layoutImm3ToReg (bits53 f) (bits20 f) = f &&& ~~~0x7C0#11 := by
  revert f; decide +kernel

@[simp] theorem layoutRegToImm3_bits (f : BitVec 11) : layoutRegToImm3 (bits86 f) (bits53 f) = f &&& ~~~0x607#11 := by
  revert f; decide +kernel

@[simp] theorem layoutImm3OrReg_bits (f : BitVec 11) : layoutImm3OrReg (bits108 f) (bits53 f) = f &&& ~~~0x0C7#11 := by
  revert f; decide +kernel

@[simp] theorem layoutRegOnly_bits (f : BitVec 11) : layoutRegOnly (bits20 f) = f &&& ~~~0x7F8#11 := by
  revert f; decide +kernel

/-- The opcodes with a format are those up to 26 (R80, R83). -/
theorem formatOf_eq_none_iff (op : BitVec 5) : formatOf op = none ↔ 26 < op.toNat := by
  revert op; decide

/-- The opcode table, row by row: an opcode with a format makes an instruction of every operand field (R80, R86). -/
theorem instrOf_reads {op : BitVec 5} {fmt : Format} (h : formatOf op = some fmt) (f : BitVec 11) :
    ∃ i, instrOf op f = some i ∧ i.Reads op fmt f := by
  have hle : op.toNat ≤ 26 := by
    by_contra hlt
    cases h.symm.trans ((formatOf_eq_none_iff op).mpr (by omega))
  have hop : op = BitVec.ofNat 5 op.toNat := by simp
  generalize op.toNat = n at hop hle
  subst hop
  interval_cases n
  all_goals
    cases h
    refine ⟨_, rfl, rfl, rfl, ?_, ?_⟩
    · simp [Instr.operands, Format.operandsOfField]
    · simp [Instr.field, reservedMask]

theorem instrOf_opcode_field (i : Instr) : instrOf i.opcode i.field = some i := by
  cases i <;> simp [Instr.opcode, Instr.field, instrOf]

/-! ### The decoder -/

theorem decode_of_formatOf_none {w : Word} (h : formatOf (opcodeField w) = none) (policy : ReservedBitsPolicy) :
    decode policy w = .illegal (opcodeField w) := by
  simp [decode, h]

theorem decode_of_reserved {w : Word} {fmt : Format} (h : formatOf (opcodeField w) = some fmt)
    (hr : operandField w &&& reservedMask fmt ≠ 0#11) :
    decode .fault w = .reserved (opcodeField w) (operandField w) := by
  simp [decode, h, hr]

/-- Where the reserved bits are no obstacle, a word decodes to what the opcode table reads from it (R86). -/
theorem decode_of_legal {policy : ReservedBitsPolicy} {w : Word} {fmt : Format}
    (h : formatOf (opcodeField w) = some fmt) (hr : ¬(policy = .fault ∧ operandField w &&& reservedMask fmt ≠ 0#11)) :
    ∃ i, decode policy w = .instr i ∧ i.Reads (opcodeField w) fmt (operandField w) := by
  obtain ⟨i, hi, hreads⟩ := instrOf_reads h (operandField w)
  refine ⟨i, ?_, hreads⟩
  simp only [decode, h, hi, and_comm.not.mp hr, if_false]

theorem decode_encode (policy : ReservedBitsPolicy) (i : Instr) : decode policy (encode i) = .instr i := by
  simp [decode, instrOf_opcode_field]

/-- Reading any operand field and encoding what it holds gives the word with the reserved bits cleared. -/
theorem Instr.Reads.encode_eq {op : BitVec 5} {fmt : Format} {f : BitVec 11} {i : Instr} (h : i.Reads op fmt f) :
    encode i = op ++ (f &&& ~~~reservedMask fmt) := by
  rw [encode, h.opcode_eq, h.field_eq]

theorem and_not_eq_self {f m : BitVec 11} (h : f &&& m = 0#11) : f &&& ~~~m = f := by
  ext k hk
  have hbit : f[k] = true → m[k] = false := by simpa using congrArg (·[k]) h
  cases hf : f[k] <;> simp_all

/-- A word that decodes under the policy fault has a format and no reserved bit set (R85). -/
theorem legal_of_decode_fault {w : Word} {i : Instr} (h : decode .fault w = .instr i) :
    ∃ fmt, formatOf (opcodeField w) = some fmt ∧ operandField w &&& reservedMask fmt = 0#11 := by
  cases hf : formatOf (opcodeField w) with
  | none => cases h.symm.trans (decode_of_formatOf_none hf _)
  | some fmt =>
    refine ⟨fmt, rfl, ?_⟩
    by_contra hr
    cases h.symm.trans (decode_of_reserved hf hr)

theorem encode_of_decode_fault {w : Word} {i : Instr} (h : decode .fault w = .instr i) : encode i = w := by
  obtain ⟨fmt, hf, hr⟩ := legal_of_decode_fault h
  obtain ⟨j, hj, hreads⟩ := decode_of_legal (policy := .fault) hf (by simp [hr])
  cases h.symm.trans hj
  rw [hreads.encode_eq, and_not_eq_self hr, append_fields]

/-! ### Operands in range -/

/-- R235 and R236 together: as many operands as bounds, each operand between 0 and its bound. -/
theorem operandsFit_iff (fmt : Format) (vals : List Int) :
    operandsFit fmt vals = true ↔
      List.Forall₂ (fun (v : Int) (bound : Nat) => 0 ≤ v ∧ v ≤ bound) vals fmt.operandMax := by
  simp [operandsFit, operandCountOk, operandRangesOk, List.forall₂_iff_zip]

theorem operandsFit_natCast_iff (fmt : Format) (vals : List Nat) :
    operandsFit fmt (vals.map Int.ofNat) = true ↔ List.Forall₂ (· ≤ ·) vals fmt.operandMax := by
  simp [operandsFit_iff, List.forall₂_map_left_iff]

/-- A number within a width is the number of a word of that width. -/
theorem exists_toNat_eq {w n : Nat} (h : n ≤ 2 ^ w - 1) : ∃ x : BitVec w, x.toNat = n :=
  ⟨BitVec.ofNat w n, Nat.mod_eq_of_lt (by have := Nat.two_pow_pos w; omega)⟩

/-- Operands in range stand in some operand field: the layout that encodes them. -/
theorem Format.exists_operandsOfField (fmt : Format) {vals : List Nat}
    (h : List.Forall₂ (· ≤ ·) vals fmt.operandMax) : ∃ f, fmt.operandsOfField f = vals := by
  cases fmt with
  | none =>
    cases h
    exact ⟨0#11, rfl⟩
  | alu =>
    obtain _ | ⟨ha, _ | ⟨hb, _ | ⟨hc, ⟨⟩⟩⟩⟩ := h
    obtain ⟨a, rfl⟩ := exists_toNat_eq (w := 3) ha
    obtain ⟨b, rfl⟩ := exists_toNat_eq (w := 3) hb
    obtain ⟨c, rfl⟩ := exists_toNat_eq (w := 3) hc
    exact ⟨layoutAlu a b c, by simp [Format.operandsOfField]⟩
  | imm8ToReg =>
    obtain _ | ⟨hreg, _ | ⟨himm, ⟨⟩⟩⟩ := h
    obtain ⟨reg, rfl⟩ := exists_toNat_eq (w := 3) hreg
    obtain ⟨imm8, rfl⟩ := exists_toNat_eq (w := 8) himm
    exact ⟨layoutImm8ToReg imm8 reg, by simp [Format.operandsOfField]⟩
  | imm10 =>
    obtain _ | ⟨himm, ⟨⟩⟩ := h
    obtain ⟨imm10, rfl⟩ := exists_toNat_eq (w := 10) himm
    exact ⟨layoutImm10 imm10, by simp [Format.operandsOfField]⟩
  | imm3ToReg =>
    obtain _ | ⟨hreg, _ | ⟨himm, ⟨⟩⟩⟩ := h
    obtain ⟨reg, rfl⟩ := exists_toNat_eq (w := 3) hreg
    obtain ⟨imm3, rfl⟩ := exists_toNat_eq (w := 3) himm
    exact ⟨layoutImm3ToReg imm3 reg, by simp [Format.operandsOfField]⟩
  | regToImm3 =>
    obtain _ | ⟨hreg, _ | ⟨himm, ⟨⟩⟩⟩ := h
    obtain ⟨reg, rfl⟩ := exists_toNat_eq (w := 3) hreg
    obtain ⟨imm3, rfl⟩ := exists_toNat_eq (w := 3) himm
    exact ⟨layoutRegToImm3 reg imm3, by simp [Format.operandsOfField]⟩
  | imm3OrReg =>
    obtain _ | ⟨himm, _ | ⟨hreg, ⟨⟩⟩⟩ := h
    obtain ⟨imm3, rfl⟩ := exists_toNat_eq (w := 3) himm
    obtain ⟨reg, rfl⟩ := exists_toNat_eq (w := 3) hreg
    exact ⟨layoutImm3OrReg imm3 reg, by simp [Format.operandsOfField]⟩
  | regOnly =>
    obtain _ | ⟨hreg, ⟨⟩⟩ := h
    obtain ⟨reg, rfl⟩ := exists_toNat_eq (w := 3) hreg
    exact ⟨layoutRegOnly reg, by simp [Format.operandsOfField]⟩

/-- Every operand list in range is the operand list of an instruction with the opcode (R94). -/
theorem exists_instr_of_operands {op : BitVec 5} {fmt : Format} {vals : List Nat} (hf : formatOf op = some fmt)
    (h : operandsFit fmt (vals.map Int.ofNat) = true) : ∃ i : Instr, i.opcode = op ∧ i.operands = vals := by
  obtain ⟨f, hvals⟩ := fmt.exists_operandsOfField ((operandsFit_natCast_iff fmt vals).mp h)
  obtain ⟨i, -, hreads⟩ := instrOf_reads hf f
  exact ⟨i, hreads.opcode_eq, hreads.operands_eq.trans hvals⟩

/-! ### The statements -/

/-- Settles O1: the encoder and the assembler's Encode agree, and an instruction is read back from its word. -/
theorem encodeDecodeRoundTrip : Obligations.EncodeDecodeRoundTrip := by
  refine ⟨decode_encode, fun w i h => encode_of_decode_fault h, fun op fmt vals hf h => ?_⟩
  obtain ⟨i, hop, hvals⟩ := exists_instr_of_operands hf h
  refine ⟨i, ?_, hop, hvals⟩
  rw [← hop, ← hvals]
  exact encodeOperands_operands i

/-- Settles O2: no format, a reserved bit that counts, or an instruction that the opcode table reads. -/
theorem decodeClassifiesEveryWord : Obligations.DecodeClassifiesEveryWord := by
  intro policy w
  cases hf : formatOf (opcodeField w) with
  | none => exact .inl ⟨(formatOf_eq_none_iff _).mp hf, decode_of_formatOf_none hf policy⟩
  | some fmt =>
    have hle : (opcodeField w).toNat ≤ 26 := by
      by_contra hlt
      cases hf.symm.trans ((formatOf_eq_none_iff _).mpr (by omega))
    refine .inr ⟨fmt, hle, rfl, ?_⟩
    split
    next hr =>
      obtain ⟨rfl, hbits⟩ := hr
      exact decode_of_reserved hf hbits
    next hr =>
      obtain ⟨i, hi, hreads⟩ := decode_of_legal hf hr
      exact ⟨i, hi, hreads.opcode_eq, hreads.format_eq, hreads.field_eq⟩

/-- Settles O3: each word is the encoding of its instruction. -/
theorem listedWordsDecode : Obligations.ListedWordsDecode := by
  intro policy
  exact ⟨decode_encode policy .ret, decode_encode policy (.add .r1 .r2 .r3), decode_encode policy (.ldi .r1 5#8),
    decode_encode policy (.jmp 1023#10), decode_encode policy (.gpi .r1 0#3), decode_encode policy (.gpo .r1 1#3),
    decode_encode policy (.pas 7#3 .r7), decode_encode policy (.pag .r5), decode_encode policy (.sto .r0 7#3 .r2)⟩

end Sys2Proof

namespace Sys2Proof.Machine

/-! ### Words that are no instruction, at the step -/

/-- A fault taken after the fetch changes the run state and IR alone (R271). -/
theorem tookFault_raiseFault (s : State) (reason : FaultReason) : TookFault s (s.raiseFault reason) reason := by
  refine ⟨rfl, rfl, rfl, rfl, fun p _ => ?_, rfl, rfl, rfl⟩
  cases p with
  | registers => exact fun _ => rfl
  | flags => exact ⟨rfl, rfl⟩
  | page | stack | trace => rfl
  | memory => exact fun _ => rfl

/-- Settles O17: an opcode above 26 has no format, so the word decodes to no instruction. -/
theorem illegalOpcodeFaults : Obligations.IllegalOpcodeFaults := by
  intro s hs hop
  have hd : s.fetched = .illegal (opcodeField (s.mem.fetch16 s.pc)) :=
    decode_of_formatOf_none ((formatOf_eq_none_iff _).mpr hop) _
  refine ⟨_, ?_, tookFault_raiseFault s.latch .illegalOpcode⟩
  rw [step_of_cycles hs, hd]
  rfl

/-- Settles O4: under the policy fault the word decodes to no instruction; under ignore it decodes to the
instruction whose encoding is the word with the reserved bits cleared. -/
theorem reservedBitsFollowThePolicy : Obligations.ReservedBitsFollowThePolicy := by
  refine ⟨⟨rfl, rfl, rfl, rfl, rfl, rfl, rfl, rfl⟩, Instr.field_reserved,
    fun s fmt hs hf hr => ⟨fun hp => ?_, fun hp => ?_⟩⟩
  · have hd : s.fetched = .reserved (opcodeField (s.mem.fetch16 s.pc)) (operandField (s.mem.fetch16 s.pc)) := by
      rw [State.fetched, hp, decode_of_reserved hf hr]
    refine ⟨_, ?_, tookFault_raiseFault s.latch .reservedBits⟩
    rw [step_of_cycles hs, hd]
    rfl
  · obtain ⟨i, hd, hreads⟩ := decode_of_legal (policy := .ignore) hf (by simp)
    refine ⟨i, ?_, step_of_fetched_instr hs ?_⟩
    · rw [← hreads.encode_eq, decode_encode]
    · rw [State.fetched, hp, hd]

end Sys2Proof.Machine
end

section
/-!
PROOFS. The assembler's image (49_assembler R224 to R237). `LineEnds` is what pass 1 can do with a line;
`Session.Consistent` is what it keeps of the session. Pass 2 resolves an instruction record to the operands of an
instruction, and the encoder has a word for each.
-/

namespace Sys2Proof.Asm

/-! ### Pass 1 on a line -/

/-- What pass 1 makes of the session `s` by the line `source`: an error, nothing but a record, or one entry of the
kind the line declares (R224 to R231, R239). -/
inductive LineEnds (s : Session) (source : Text) : Session → Prop
  | rejected (toks : List Text) : LineEnds s source { s.dropLine source toks with errors := s.errors + 1 }
  | dropped (toks : List Text) : LineEnds s source (s.dropLine source toks)
  | subroutine (toks : List Text) (t name : Text) (hn : checkName s.symbols t = .ok name) :
      LineEnds s source (s.declare source toks .subroutine ⟨name, .subroutine, .value s.instructionCounter⟩)
  | dataVariable (toks : List Text) (t name : Text) (v : Byte) (hn : checkName s.symbols t = .ok name) :
      LineEnds s source
        { s.declare source toks .dataVariable ⟨name, .dataVariable, .unresolved⟩ with
          varValues := s.varValues ++ [(name, v)]
          varOrder := s.varOrder ++ [name] }
  | definition (toks : List Text) (t name : Text) (n : Nat) (hn : checkName s.symbols t = .ok name) :
      LineEnds s source (s.declare source toks .definition ⟨name, .definition, .value n⟩)
  | instruction (toks : List Text) (t : Text) (op : BitVec 5) (hop : opcodeOfMnemonic t = some op) :
      LineEnds s source
        { s with
          records := s.records ++
            [{ tokens := toks, kind := .instruction, opcode := some op, format := formatOf op,
               address := some (s.instructionCounter <<< 1), source := source }]
          instructionCounter := s.instructionCounter + 1 }

section
variable {s u : Session} {source : Text} {toks : List Text}

theorem ends_of_declareSubroutine (h : declareSubroutine s source toks = .ok u) : LineEnds s source u := by
  unfold declareSubroutine at h
  split at h
  next t =>
    split at h
    next name hn => cases h; exact .subroutine _ _ name hn
    next => cases h
  next => cases h

theorem ends_of_declareVariable (h : declareVariable s source toks = .ok u) : LineEnds s source u := by
  unfold declareVariable at h
  split at h
  next t v =>
    split at h
    next name n hn _ =>
      split at h
      next => cases h; exact .dataVariable _ _ name _ hn
      next => cases h
    next => cases h
    next => cases h
  next => cases h

theorem ends_of_declareDefinition (h : declareDefinition s source toks = .ok u) : LineEnds s source u := by
  unfold declareDefinition at h
  split at h
  next t v =>
    split at h
    next name n hn _ =>
      split at h
      next => cases h; exact .definition _ _ name _ hn
      next => cases h
    next => cases h
    next => cases h
  next => cases h

theorem ends_of_recordInstruction (h : recordInstruction s source toks = .ok u) : LineEnds s source u := by
  unfold recordInstruction at h
  split at h
  next => cases h
  next t _ =>
    split at h
    next => cases h
    next op hop => cases h; exact .instruction _ t op hop

end

/-- Every line ends in one of the ways of `LineEnds`. -/
theorem classifyLine_ends (s : Session) (line : Text) : LineEnds s line (classifyLine s line) := by
  unfold classifyLine
  extract_lets body toks outcome
  have hok : ∀ u, outcome = .ok u → LineEnds s line u := by
    intro u hu
    simp only [outcome] at hu
    split at hu
    next => cases hu; exact .dropped toks
    next => exact ends_of_declareSubroutine hu
    next => exact ends_of_declareVariable hu
    next => exact ends_of_declareDefinition hu
    next => exact ends_of_recordInstruction hu
  clear_value outcome
  cases outcome with
  | ok u => exact hok u rfl
  | error => exact .rejected toks

/-- What every line keeps, pass 1 keeps. -/
theorem passOne_keeps {P : Session → Prop} (cfg : AsmConfig) (hinit : P (.initial cfg))
    (hline : ∀ s line u, P s → LineEnds s line u → P u) (lines : List Text) : P (passOne cfg lines) :=
  List.foldlRecOn lines classifyLine hinit fun s hs line _ => hline s line _ hs (classifyLine_ends s line)

/-! ### What pass 1 keeps of the session -/

/-- An instruction record has a legal opcode and that opcode's format (R231). -/
def Record.WellFormed (r : Record) : Prop :=
  r.kind = .instruction → ∃ op fmt, r.opcode = some op ∧ formatOf op = some fmt ∧ r.format = some fmt

/-- The counter counts the instruction records, each well formed, and the two lists of variables are of the same
names in the same order. -/
structure Session.Consistent (s : Session) : Prop where
  records : ∀ r ∈ s.records, r.WellFormed
  counter : s.records.countP (·.kind == .instruction) = s.instructionCounter
  order : s.varOrder = s.varValues.map Prod.fst

/-- No mnemonic stands for an illegal opcode (R80, R231). -/
theorem exists_formatOf_of_mnemonic {t : Text} {op : BitVec 5} (h : opcodeOfMnemonic t = some op) :
    ∃ fmt, formatOf op = some fmt := by
  have hlegal : ∀ e ∈ mnemonics, (formatOf e.2).isSome = true := by decide
  obtain ⟨e, he, rfl⟩ := Option.map_eq_some_iff.mp h
  exact Option.isSome_iff_exists.mp (hlegal e (List.mem_of_find?_eq_some he))

theorem LineEnds.consistent {s u : Session} {source : Text} (h : LineEnds s source u) (hs : s.Consistent) :
    u.Consistent := by
  obtain ⟨hrecords, hcounter, horder⟩ := hs
  have happend : ∀ r : Record, r.WellFormed → ∀ q ∈ s.records ++ [r], q.WellFormed := by
    intro r hr q hq
    obtain hq | hq := List.mem_append.mp hq
    · exact hrecords q hq
    · exact List.mem_singleton.mp hq ▸ hr
  cases h with
  | rejected | dropped | subroutine | definition =>
    exact ⟨happend _ nofun, by simpa [Session.dropLine, Session.declare] using hcounter, horder⟩
  | dataVariable =>
    exact ⟨happend _ nofun, by simpa [Session.declare] using hcounter, by simp [horder]⟩
  | instruction toks t op hop =>
    obtain ⟨fmt, hf⟩ := exists_formatOf_of_mnemonic hop
    exact ⟨happend _ fun _ => ⟨op, fmt, rfl, hf, hf⟩, by simp [hcounter], horder⟩

theorem passOne_consistent (cfg : AsmConfig) (lines : List Text) : (passOne cfg lines).Consistent :=
  passOne_keeps cfg ⟨by simp [Session.initial], rfl, rfl⟩ (fun _ _ _ hs h => h.consistent hs) lines

/-! ### Pass 2 -/

/-- An instruction as pass 2 hands it to the encoder. -/
def Resolved.ofInstr (i : Instr) : Resolved := ⟨i.opcode, i.operands⟩

/-- Operands that fit are non-negative, so nothing is lost when pass 2 narrows them. -/
theorem map_ofNat_map_toNat {fmt : Format} {vals : List Int} (h : operandsFit fmt vals = true) :
    (vals.map Int.toNat).map Int.ofNat = vals := by
  rw [operandsFit_iff] at h
  generalize fmt.operandMax = bounds at h
  induction h with
  | nil => rfl
  | cons hv _ ih => simp [ih, hv.1]

/-- Operands that pass R235 and R236 are those of an instruction. -/
theorem ofInstr_of_checkOperands {op : BitVec 5} {fmt : Format} {vals : List Int} {r : Resolved}
    (hf : formatOf op = some fmt) (h : checkOperands op fmt vals = .ok r) : ∃ i, r = .ofInstr i := by
  unfold checkOperands at h
  split at h
  next hcount =>
    split at h
    next hranges =>
      have hfit : operandsFit fmt vals = true := by simp [operandsFit, hcount, hranges]
      obtain ⟨i, hop, hvals⟩ := exists_instr_of_operands hf ((map_ofNat_map_toNat hfit).symm ▸ hfit)
      cases h
      exact ⟨i, by rw [Resolved.ofInstr, hop, hvals]⟩
    next => cases h
  next => cases h

/-- Pass 2 speaks of an instruction record, and resolves it, if it does, to the operands of an instruction. -/
theorem resolveRecord_of_instruction (symbols : List Symbol) {r : Record} (hr : r.WellFormed)
    (hk : r.kind = .instruction) :
    ∃ o, resolveRecord symbols r = some o ∧ ∀ res, o = .ok res → ∃ i, res = .ofInstr i := by
  obtain ⟨op, fmt, hop, hf, hfmt⟩ := hr hk
  simp only [resolveRecord, hk, hop, hfmt]
  split
  next => exact ⟨_, rfl, fun res h => ofInstr_of_checkOperands hf h⟩
  next => exact ⟨_, rfl, nofun⟩

theorem resolveRecord_of_not_instruction (symbols : List Symbol) {r : Record} (hk : r.kind ≠ .instruction) :
    resolveRecord symbols r = none := by
  cases h : r.kind <;> simp_all [resolveRecord]

/-- Pass 2 speaks of exactly the instruction records. -/
theorem resolveRecord_isSome (symbols : List Symbol) {r : Record} (hr : r.WellFormed) :
    (resolveRecord symbols r).isSome = (r.kind == .instruction) := by
  by_cases hk : r.kind = .instruction
  · obtain ⟨o, ho, -⟩ := resolveRecord_of_instruction symbols hr hk
    simp [ho, hk]
  · simp [resolveRecord_of_not_instruction symbols hk, hk]

theorem ofInstr_of_resolveRecord {symbols : List Symbol} {r : Record} {res : Resolved} (hr : r.WellFormed)
    (h : resolveRecord symbols r = some (.ok res)) : ∃ i, res = .ofInstr i := by
  by_cases hk : r.kind = .instruction
  · obtain ⟨o, ho, hinstr⟩ := resolveRecord_of_instruction symbols hr hk
    cases h.symm.trans ho
    exact hinstr res rfl
  · cases h.symm.trans (resolveRecord_of_not_instruction symbols hk)

/-- What pass 2 makes of the lines, in program order (R233 to R236). -/
def passTwo (cfg : AsmConfig) (lines : List Text) : List (Except SyntaxError Resolved) :=
  (passOne cfg lines).records.filterMap (resolveRecord (passOne cfg lines).resolvedSymbols)

theorem length_passTwo (cfg : AsmConfig) (lines : List Text) :
    (passTwo cfg lines).length = (passOne cfg lines).instructionCounter := by
  have hs := passOne_consistent cfg lines
  rw [passTwo, List.length_filterMap_eq_countP, ← hs.counter]
  exact List.countP_congr fun r hr => by rw [resolveRecord_isSome _ (hs.records r hr)]

section
variable (r : Resolved) (e : SyntaxError) (os : List (Except SyntaxError Resolved))

@[simp] theorem resolvedInstructions_ok_cons :
    resolvedInstructions (.ok r :: os) = r :: resolvedInstructions os := rfl

@[simp] theorem resolvedInstructions_error_cons :
    resolvedInstructions (.error e :: os) = resolvedInstructions os := rfl

@[simp] theorem countErrors_ok_cons : countErrors (.ok r :: os) = countErrors os := by simp [countErrors]

@[simp] theorem countErrors_error_cons : countErrors (.error e :: os) = countErrors os + 1 := by simp [countErrors]

end

theorem mem_of_mem_resolvedInstructions {outcomes : List (Except SyntaxError Resolved)} {res : Resolved}
    (h : res ∈ resolvedInstructions outcomes) : .ok res ∈ outcomes := by
  induction outcomes with
  | nil => cases h
  | cons o os ih =>
    cases o with
    | ok r =>
      obtain rfl | h := List.mem_cons.mp h
      · exact List.mem_cons_self
      · exact List.mem_cons_of_mem _ (ih h)
    | error => exact List.mem_cons_of_mem _ (ih h)

/-- Without an error, pass 2 has resolved every record it speaks of. -/
theorem eq_map_ok_of_countErrors {outcomes : List (Except SyntaxError Resolved)} (h : countErrors outcomes = 0) :
    outcomes = (resolvedInstructions outcomes).map .ok := by
  induction outcomes with
  | nil => rfl
  | cons o os ih =>
    cases o with
    | ok r =>
      rw [countErrors_ok_cons] at h
      rw [resolvedInstructions_ok_cons, List.map_cons, ← ih h]
    | error => simp at h

/-- What pass 2 resolves is a list of instructions. -/
theorem exists_program (cfg : AsmConfig) (lines : List Text) :
    ∃ program : List Instr, resolvedInstructions (passTwo cfg lines) = program.map .ofInstr := by
  have hinstr : ∀ res ∈ resolvedInstructions (passTwo cfg lines), res ∈ Set.range Resolved.ofInstr := by
    intro res hres
    obtain ⟨r, hr, hresolve⟩ := List.mem_filterMap.mp (mem_of_mem_resolvedInstructions hres)
    obtain ⟨i, rfl⟩ := ofInstr_of_resolveRecord ((passOne_consistent cfg lines).records r hr) hresolve
    exact ⟨i, rfl⟩
  obtain ⟨program, hprogram⟩ := (Set.range_list_map Resolved.ofInstr).ge hinstr
  exact ⟨program, hprogram.symm⟩

/-! ### Emission -/

/-- The encoder has the word of every resolved instruction (R93). -/
theorem encodeAll_map_ofInstr (program : List Instr) :
    encodeAll (program.map .ofInstr) = some (program.map encode) := by
  induction program with
  | nil => rfl
  | cons i is ih => simp [encodeAll, Resolved.ofInstr, encodeOperands_operands, ih]

theorem imageBytes_map_encode (program : List Instr) (data : List Byte) :
    Machine.imageBytes (program.map encode) data = program.flatMap encodeBytes ++ data := by
  rw [Machine.imageBytes, List.flatMap_map]
  rfl

/-- Emission of a program's instructions: the errors counted, the image, or the one error of its size (R237). -/
theorem emitImage_map_ofInstr (errors : Nat) (program : List Instr) (data : List Byte) :
    emitImage errors (program.map .ofInstr) data =
      if errors = 0 then
        if (program.flatMap encodeBytes ++ data).length ≤ 2048 then .image (program.flatMap encodeBytes ++ data)
        else .failed 1
      else .failed errors := by
  simp only [emitImage, encodeAll_map_ofInstr, imageBytes_map_encode, Machine.imageLimit]

/-- An image is emitted only without an error, and it is the program's and the data segment's (R237). -/
theorem emitImage_eq_image {errors : Nat} {program : List Instr} {data bytes : List Byte}
    (h : emitImage errors (program.map .ofInstr) data = .image bytes) :
    errors = 0 ∧ bytes.length ≤ 2048 ∧ bytes = program.flatMap encodeBytes ++ data := by
  rw [emitImage_map_ofInstr] at h
  split at h
  next herrors =>
    split at h
    next hlen =>
      cases h
      exact ⟨herrors, hlen, rfl⟩
    next => cases h
  next => cases h

theorem assemble_eq (cfg : AsmConfig) (lines : List Text) :
    assemble cfg lines = emitImage ((passOne cfg lines).errors + countErrors (passTwo cfg lines))
      (resolvedInstructions (passTwo cfg lines)) (passOne cfg lines).dataSegment := rfl

/-! ### The data segment -/

theorem exists_value_of_mem_varOrder {s : Session} (hs : s.Consistent) {name : Text} (h : name ∈ s.varOrder) :
    ∃ v, (s.varValues.find? fun e => e.1 == name).map Prod.snd = some v ∧ (name, v) ∈ s.varValues := by
  rw [hs.order] at h
  obtain ⟨e, he, rfl⟩ := List.mem_map.mp h
  cases hfind : s.varValues.find? fun d => d.1 == e.1 with
  | none => simpa using List.find?_eq_none.mp hfind e he
  | some d =>
    have hname : d.1 = e.1 := by simpa using List.find?_some hfind
    exact ⟨d.2, rfl, hname ▸ List.mem_of_find?_eq_some hfind⟩

/-- Where an optional answer exists for every element of a list, the answers stand one for one. -/
theorem forall₂_filterMap {α β : Type} {f : α → Option β} {P : α → β → Prop} {l : List α}
    (h : ∀ a ∈ l, ∃ b, f a = some b ∧ P a b) : List.Forall₂ P l (l.filterMap f) := by
  induction l with
  | nil => exact .nil
  | cons a l ih =>
    obtain ⟨b, hb, hP⟩ := h a List.mem_cons_self
    rw [List.filterMap_cons_some hb]
    exact .cons hP (ih fun x hx => h x (List.mem_cons_of_mem a hx))

/-- The data segment has one byte for each variable, in order, the one it was declared with (R237). -/
theorem dataSegment_forall₂ {s : Session} (hs : s.Consistent) :
    List.Forall₂ (fun name v => (name, v) ∈ s.varValues) s.varOrder s.dataSegment :=
  forall₂_filterMap fun _ h => exists_value_of_mem_varOrder hs h

theorem exists_getElem?_of_forall₂ {α β : Type} {P : α → β → Prop} {as : List α} {bs : List β}
    (h : List.Forall₂ P as bs) {i : Nat} {a : α} (ha : as[i]? = some a) : ∃ b, bs[i]? = some b ∧ P a b := by
  obtain ⟨hi, rfl⟩ := List.getElem?_eq_some_iff.mp ha
  have hi' : i < bs.length := h.length_eq ▸ hi
  exact ⟨bs[i], List.getElem?_eq_getElem hi', h.get hi hi'⟩

/-! ### The statements -/

/-- Settles O53: what pass 2 resolves is a program, and emission of a program gives an image or a count. -/
theorem encoderNeverAborts : Obligations.EncoderNeverAborts := by
  intro cfg lines
  obtain ⟨program, hprogram⟩ := exists_program cfg lines
  rw [assemble_eq, hprogram, emitImage_map_ofInstr]
  split
  · split <;> nofun
  · nofun

/-- Settles O52: an image is emitted only without an error, and then all records are resolved. -/
theorem assembledImageIsEncodedInstructions : Obligations.AssembledImageIsEncodedInstructions := by
  intro cfg lines bytes h
  obtain ⟨program, hprogram⟩ := exists_program cfg lines
  have hdata := dataSegment_forall₂ (passOne_consistent cfg lines)
  rw [assemble_eq, hprogram] at h
  obtain ⟨herrors, hlen, rfl⟩ := emitImage_eq_image h
  have hresolved : passTwo cfg lines = program.map fun i => .ok (.ofInstr i) := by
    rw [eq_map_ok_of_countErrors (Nat.eq_zero_of_add_eq_zero_left herrors), hprogram, List.map_map]
    rfl
  refine ⟨program, _, rfl, hlen, hresolved, ?_, hdata.length_eq.symm, fun i name => exists_getElem?_of_forall₂ hdata⟩
  rw [← length_passTwo, hresolved, List.length_map]

end Sys2Proof.Asm
end

section
/-!
PROOFS. What the statements say of an instruction, built from what its operations do: how it is written, the
register it writes, the parts it keeps, the pc's move. Each lemma is about one operation, and an instruction's
frame is composed of them.
-/

namespace Sys2Proof.Machine

/-! ### How an instruction is written -/

/-- What the assembler knows by an instruction's mnemonic is written with the instruction's own operands, opcode,
format and word. -/
theorem written_of_mnemonic (i : Instr) {mnemonic : String}
    (h : Asm.opcodeOfMnemonic mnemonic.toList = some i.opcode) :
    Written i mnemonic i.operands i.opcode i.format (i.opcode.toNat <<< 11 ||| i.field.toNat) :=
  ⟨h, i.formatOf_opcode, encodeOperands_operands i, encode_toNat i⟩

/-! ### Registers, the pc and the frame -/

section
variable {s u : State} {parts : List Part}

/-- A register write, register 0 included (R22, R23). -/
theorem regWritten_writeReg (s : State) (c : Reg) (v : Byte) : RegWritten s (s.writeReg c v) c v := by
  refine ⟨?_, fun r hr => ?_⟩
  · by_cases hc : c = .r0
    · subst hc
      rfl
    · rw [State.readReg_writeReg, if_pos ⟨rfl, hc⟩, if_neg hc]
  · rw [State.readReg_writeReg, if_neg (fun h => hr h.1)]

/-- The move to the next instruction halts exactly from index 1023 (R27, R28). -/
theorem movedOn_advance (hpc : u.pc = s.pc) (hrun : u.run = s.run) : MovedOn s u.advance := by
  simp only [MovedOn, State.advance_pc, State.advance_run, hpc, hrun, pc_succ_eq_end, and_self]

theorem keptBut_writeReg (s : State) (c : Reg) (v : Byte) : KeptBut s (s.writeReg c v) [.registers] := by
  refine ⟨fun p hp => ?_, rfl, rfl, rfl⟩
  cases p with
  | registers => exact absurd (List.mem_singleton.2 rfl) hp
  | flags => exact ⟨rfl, rfl⟩
  | page | stack | trace => rfl
  | memory => exact fun _ => rfl

theorem KeptBut.writeFlags (h : KeptBut s u parts) (carry zero : Bool) :
    KeptBut s (u.writeFlags carry zero) (parts ++ [.flags]) := by
  obtain ⟨hparts, hmodel⟩ := h
  refine ⟨fun p hp => ?_, hmodel⟩
  have hkept : p.Kept s u := hparts p fun hmem => hp (List.mem_append_left _ hmem)
  cases p with
  | flags => exact absurd (List.mem_append_right _ (List.mem_singleton.2 rfl)) hp
  | registers | page | stack | memory | trace => exact hkept

/-- The pc update keeps whatever was kept. -/
theorem KeptBut.advance (h : KeptBut s u parts) : KeptBut s u.advance parts := by
  obtain ⟨hparts, hmodel⟩ := h
  refine ⟨fun p hp => ?_, hmodel⟩
  have hkept : p.Kept s u := hparts p hp
  cases p <;> exact hkept

theorem FlagsAre.congr {c c' z z' : Prop} (h : FlagsAre u c z) (hc : c ↔ c') (hz : z ↔ z') : FlagsAre u c' z' :=
  ⟨h.1.trans hc, h.2.trans hz⟩

end

end Sys2Proof.Machine
end

section
/-!
PROOFS. The ALU (40_alu R100 to R112). `AluOp.instr` makes the nine ALU-op instructions one family, so that what
they share is proved once; what is left of each is its operation's result and flags.
-/

namespace Sys2Proof.Machine

/-! ### The results and the flags of the operations -/

theorem carryOut_iff (n : Nat) : carryOut n = true ↔ 255 < n := decide_eq_true_iff

/-- Every operation's Z comes from its result. -/
theorem alu_zero (op : AluOp) (x y : Byte) : (alu op x y).zero = zeroOf (aluResult op x y) := by
  cases op with
  | ior | nor | and => simp [alu]
  | add | sub | xor | xno | nan | rsh => rfl

@[simp] theorem alu_result (op : AluOp) (x y : Byte) : (alu op x y).result = aluResult op x y := by
  cases op with
  | ior | nor | and => simp [alu]
  | add | sub | xor | xno | nan | rsh => rfl

/-- SUB's exact sum, with the complement written as a subtraction (R103). -/
theorem subSum_eq (x y : Byte) : subSum x y = x.toNat + 256 - y.toNat := by
  have hy : (~~~y).toNat = 255 - y.toNat := BitVec.toNat_not
  have hlt := y.isLt
  unfold subSum
  omega

/-- SUB's carry as a comparison of its operands (R103). -/
theorem sub_carry_iff (x y : Byte) : 255 < x.toNat + 256 - y.toNat ↔ y.toNat ≤ x.toNat := by
  have hy := y.isLt
  omega

/-- When an operation sets C (R102 to R110). -/
def AluOp.CarrySet (x y : Byte) : AluOp → Prop
  | .add | .xno | .rsh => 255 < x.toNat + y.toNat
  | .sub => y.toNat ≤ x.toNat
  | .xor => y.toNat < x.toNat
  | .ior | .nor | .and | .nan => False

theorem alu_carry_iff (op : AluOp) (x y : Byte) : (alu op x y).carry = true ↔ op.CarrySet x y := by
  cases op with
  | add | xno | rsh => exact carryOut_iff _
  | sub => exact (carryOut_iff _).trans (subSum_eq x y ▸ sub_carry_iff x y)
  | xor => exact decide_eq_true_iff
  | ior | nor | and | nan => simp [alu, AluOp.CarrySet]

theorem byte_ofNat_mod (n : Nat) : BitVec.ofNat 8 n = BitVec.ofNat 8 (n % 256) :=
  BitVec.eq_of_toNat_eq (by simp)

/-- A byte made of a number below 256 is 0 exactly when the number is. -/
theorem zeroOf_ofNat_iff {n : Nat} (h : n < 256) : zeroOf (BitVec.ofNat 8 n) = true ↔ n = 0 := by
  rw [zeroOf_iff, ← BitVec.toNat_inj, BitVec.toNat_ofNat, Nat.mod_eq_of_lt h]
  rfl

/-- SUB's result is the difference, borrowing 256 (R103). -/
theorem aluResult_sub (x y : Byte) : aluResult .sub x y = BitVec.ofNat 8 ((x.toNat + 256 - y.toNat) % 256) := by
  rw [← byte_ofNat_mod, ← subSum_eq]
  rfl

/-- RSH drops the sum's bit 8 before it shifts (R110). -/
theorem aluResult_rsh (x y : Byte) : aluResult .rsh x y = BitVec.ofNat 8 ((x.toNat + y.toNat) % 256 / 2) := by
  apply BitVec.eq_of_toNat_eq
  simp only [aluResult, addSum, BitVec.toNat_ushiftRight, BitVec.toNat_ofNat, Nat.shiftRight_eq_div_pow]
  omega

theorem zeroOf_xor_iff (x y : Byte) : zeroOf (x ^^^ y) = true ↔ x = y := by
  rw [zeroOf_iff, BitVec.xor_eq_zero_iff]

theorem zeroOf_or_iff (x y : Byte) : zeroOf (x ||| y) = true ↔ x = 0#8 ∧ y = 0#8 := by
  rw [zeroOf_iff, BitVec.or_eq_zero_iff]

/-- SUB's result is 0 exactly on equal operands (R103). -/
theorem sub_zero_iff (x y : Byte) : (x.toNat + 256 - y.toNat) % 256 = 0 ↔ x = y := by
  rw [← BitVec.toNat_inj]
  have hx := x.isLt
  have hy := y.isLt
  omega

/-! ### The nine instructions as one family -/

/-- The ALU-op instruction of an operation (R100). -/
def AluOp.instr : AluOp → Reg → Reg → Reg → Instr
  | .add => .add
  | .sub => .sub
  | .xor => .xor
  | .xno => .xno
  | .ior => .ior
  | .nor => .nor
  | .and => .and
  | .nan => .nan
  | .rsh => .rsh

theorem exec_aluInstr (op : AluOp) (a b c : Reg) (s : State) :
    exec (op.instr a b c) s = .next (s.aluStep op a b c) := by
  cases op <;> rfl

theorem exists_aluInstr {i : Instr} (h : isAluOp i = true) : ∃ (op : AluOp) (a b c : Reg), i = op.instr a b c := by
  cases i with
  | add a b c => exact ⟨.add, a, b, c, rfl⟩
  | sub a b c => exact ⟨.sub, a, b, c, rfl⟩
  | xor a b c => exact ⟨.xor, a, b, c, rfl⟩
  | xno a b c => exact ⟨.xno, a, b, c, rfl⟩
  | ior a b c => exact ⟨.ior, a, b, c, rfl⟩
  | nor a b c => exact ⟨.nor, a, b, c, rfl⟩
  | and a b c => exact ⟨.and, a, b, c, rfl⟩
  | nan a b c => exact ⟨.nan, a, b, c, rfl⟩
  | rsh a b c => exact ⟨.rsh, a, b, c, rfl⟩
  | _ => cases h

/-- The ALU layout: the opcode above the three register numbers (R73). -/
theorem written_aluInstr (op : AluOp) (a b c : Reg) {mnemonic : String}
    (h : Asm.opcodeOfMnemonic mnemonic.toList = some (op.instr a b c).opcode) :
    Written (op.instr a b c) mnemonic [a.number, b.number, c.number] (op.instr a b c).opcode .alu
      ((op.instr a b c).opcode.toNat <<< 11 ||| a.number <<< 6 ||| b.number <<< 3 ||| c.number) := by
  have hfield : (op.instr a b c).field = layoutAlu a.bits b.bits c.bits := by cases op <;> rfl
  have hformat : (op.instr a b c).format = .alu := by cases op <;> rfl
  have hoperands : (op.instr a b c).operands = [a.number, b.number, c.number] := by cases op <;> rfl
  have hw := written_of_mnemonic _ h
  rw [hfield, hformat, hoperands, layoutAlu_toNat] at hw
  simpa only [Reg.toNat_bits, Nat.or_assoc] using hw

/-- The effect every ALU-op instruction has: the destination takes the result `v`, C is the operation's, Z is as `z`
says, the pc moves on, and the rest is kept (R101). -/
theorem exec_aluInstr_effect (op : AluOp) (a b c : Reg) (s : State) {v : Byte} {z : Prop}
    (hv : aluResult op (s.readReg a) (s.readReg b) = v) (hz : zeroOf v = true ↔ z) :
    ∃ t, exec (op.instr a b c) s = .next t ∧ RegWritten s t c v ∧
      FlagsAre t (op.CarrySet (s.readReg a) (s.readReg b)) z ∧ MovedOn s t ∧ KeptBut s t [.registers, .flags] := by
  subst hv
  rw [← alu_zero] at hz
  rw [← alu_result]
  exact ⟨_, exec_aluInstr op a b c s, regWritten_writeReg s c _, ⟨alu_carry_iff op _ _, hz⟩, movedOn_advance rfl rfl,
    ((keptBut_writeReg s c _).writeFlags _ _).advance⟩

/-! ### The statements -/

/-- Settles O22: an ALU-op instruction computes from its two registers and overwrites both flags. -/
theorem aluReadsNoFlag : Obligations.AluReadsNoFlag := by
  intro i s c z h
  obtain ⟨op, ra, rb, rc, rfl⟩ := exists_aluInstr h
  rw [exec_aluInstr, exec_aluInstr, State.aluStep_eq, State.aluStep_eq]
  rfl

/-- Settles O23: the exact sum, narrowed to a byte. -/
theorem addResult : Obligations.AddResult := by
  intro a b c s
  exact ⟨written_aluInstr .add a b c rfl, exec_aluInstr_effect .add a b c s (byte_ofNat_mod _)
    (zeroOf_ofNat_iff (Nat.mod_lt _ (by decide)))⟩

/-- Settles O24: the sum with the complement is a subtraction, and its flags compare the operands. -/
theorem subResult : Obligations.SubResult := by
  intro a b c s
  obtain ⟨t, he, hr, hf, hm, hk⟩ := exec_aluInstr_effect .sub a b c s (aluResult_sub _ _)
    (zeroOf_ofNat_iff (Nat.mod_lt _ (by decide)))
  exact ⟨written_aluInstr .sub a b c rfl, t, he, hr, hf.congr (sub_carry_iff _ _).symm .rfl,
    hf.congr .rfl (sub_zero_iff _ _), hm, hk⟩

/-- Settles O25: an exclusive or is 0 exactly on equal operands. -/
theorem xorResult : Obligations.XorResult := by
  intro a b c s
  exact ⟨written_aluInstr .xor a b c rfl, exec_aluInstr_effect .xor a b c s rfl (zeroOf_xor_iff _ _)⟩

/-- Settles O26: XOR's complement, with ADD's carry. -/
theorem xnoResult : Obligations.XnoResult := by
  intro a b c s
  exact ⟨written_aluInstr .xno a b c rfl, exec_aluInstr_effect .xno a b c s rfl (zeroOf_not_iff _)⟩

/-- Settles O27: an or is 0 exactly when both operands are. -/
theorem iorResult : Obligations.IorResult := by
  intro a b c s
  exact ⟨written_aluInstr .ior a b c rfl, exec_aluInstr_effect .ior a b c s rfl (zeroOf_or_iff _ _)⟩

/-- Settles O28: IOR's complement. -/
theorem norResult : Obligations.NorResult := by
  intro a b c s
  exact ⟨written_aluInstr .nor a b c rfl, exec_aluInstr_effect .nor a b c s rfl (zeroOf_not_iff _)⟩

/-- Settles O29: Z is the result's own. -/
theorem andResult : Obligations.AndResult := by
  intro a b c s
  exact ⟨written_aluInstr .and a b c rfl, exec_aluInstr_effect .and a b c s rfl (zeroOf_iff _)⟩

/-- NAN and NOR put out the same result and flags (R109). -/
theorem alu_nan_eq_nor (x y : Byte) : alu .nan x y = alu .nor x y := by
  simp [alu, aluResult, not_and_not]

/-- Settles O30: by De Morgan's law NAN is NOR on every pair of operands. -/
theorem nanResult : Obligations.NanResult := by
  intro a b c s
  have hz : zeroOf (~~~s.readReg a &&& ~~~s.readReg b) = true ↔ s.readReg a ||| s.readReg b = 0xFF#8 := by
    rw [not_and_not]
    exact zeroOf_not_iff _
  have hnor : exec (AluOp.nan.instr a b c) s = exec (AluOp.nor.instr a b c) s := by
    rw [exec_aluInstr, exec_aluInstr, State.aluStep_eq, State.aluStep_eq, alu_nan_eq_nor]
  exact ⟨written_aluInstr .nan a b c rfl, exec_aluInstr_effect .nan a b c s rfl hz, hnor⟩

/-- Settles O31: the sum's bit 8 goes to C alone; the result and Z come from the shifted low byte. -/
theorem rshResult : Obligations.RshResult := by
  intro a b c s
  exact ⟨written_aluInstr .rsh a b c rfl, fun _ _ => rfl, exec_aluInstr_effect .rsh a b c s (aluResult_rsh _ _)
    (zeroOf_ofNat_iff (by omega))⟩

end Sys2Proof.Machine
end

section
/-!
PROOFS. The immediate instructions (41_immediate R140, R141). ADI is ADD's sum with a constant; whether its flags go
to the state too is the one case split, on ADI_WRITES_FLAGS.
-/

namespace Sys2Proof.Machine

/-! ### How they are written -/

/-- The layout of an 8-bit immediate above a register number (R74). -/
theorem written_imm8ToReg {i : Instr} {mnemonic : String} {imm8 : BitVec 8} {reg : Reg}
    (h : Asm.opcodeOfMnemonic mnemonic.toList = some i.opcode) (hfield : i.field = layoutImm8ToReg imm8 reg.bits) :
    Written i mnemonic i.operands i.opcode i.format (i.opcode.toNat <<< 11 ||| imm8.toNat <<< 3 ||| reg.number) := by
  have hw := written_of_mnemonic i h
  rwa [hfield, layoutImm8ToReg_toNat, Reg.toNat_bits, ← Nat.or_assoc] at hw

/-! ### What they do -/

theorem exec_ldi (reg : Reg) (imm8 : BitVec 8) (s : State) :
    exec (.ldi reg imm8) s = .next (s.writeReg reg imm8).advance := by
  rfl

theorem exec_adi (reg : Reg) (imm8 : BitVec 8) (s : State) :
    exec (.adi reg imm8) s = .next (if s.cfg.adiWritesFlags then
      (s.writeReg reg (alu .add (s.readReg reg) imm8).result).writeFlags (alu .add (s.readReg reg) imm8).carry
        (alu .add (s.readReg reg) imm8).zero
      else s.writeReg reg (alu .add (s.readReg reg) imm8).result).advance := by
  rfl

/-! ### ADD's outputs as numbers, for any two bytes (R102) -/

theorem alu_add_result (x y : Byte) : (alu .add x y).result = BitVec.ofNat 8 ((x.toNat + y.toNat) % 256) :=
  (alu_result .add x y).trans (byte_ofNat_mod _)

theorem alu_add_zero_iff (x y : Byte) : (alu .add x y).zero = true ↔ (x.toNat + y.toNat) % 256 = 0 := by
  rw [alu_zero, ← alu_result, alu_add_result, zeroOf_ofNat_iff (Nat.mod_lt _ (by decide))]

/-! ### The frame -/

/-- What is kept outside a list of parts is kept outside a longer one. -/
theorem KeptBut.mono {s u : State} {parts parts' : List Part} (h : KeptBut s u parts) (hsub : parts ⊆ parts') :
    KeptBut s u parts' := by
  obtain ⟨hparts, hmodel⟩ := h
  exact ⟨fun p hp => hparts p fun hmem => hp (hsub hmem), hmodel⟩

/-! ### The statements -/

/-- Settles O32: ADD's sum is written under either value of ADI_WRITES_FLAGS, ADD's flags under the one. -/
theorem adiResult : Obligations.AdiResult := by
  intro reg imm8 s
  refine ⟨written_imm8ToReg rfl rfl, ?_⟩
  rw [← alu_add_result, exec_adi]
  have hkept := keptBut_writeReg s reg (alu .add (s.readReg reg) imm8).result
  by_cases hp : s.cfg.adiWritesFlags = true
  · simp only [if_pos hp]
    exact ⟨_, rfl, regWritten_writeReg s reg _, ⟨alu_carry_iff .add _ _, alu_add_zero_iff _ _⟩,
      movedOn_advance rfl rfl, (hkept.writeFlags _ _).advance⟩
  · simp only [if_neg hp]
    exact ⟨_, rfl, regWritten_writeReg s reg _, ⟨rfl, rfl⟩, movedOn_advance rfl rfl,
      (hkept.mono (List.subset_append_left _ [Part.flags])).advance⟩

/-- Settles O33: the immediate is written as it stands, and the write touches no other part. -/
theorem ldiResult : Obligations.LdiResult := by
  intro reg imm8 s
  exact ⟨written_imm8ToReg rfl rfl, _, exec_ldi reg imm8 s, regWritten_writeReg s reg imm8, movedOn_advance rfl rfl,
    (keptBut_writeReg s reg imm8).advance⟩

end Sys2Proof.Machine
end

section
/-!
PROOFS. Control transfer (42_control R150 to R157). An instruction may change the stack, then goes to a target or moves
on: each of these is one lemma. A CAL followed by a RET is the composition of what the two do.
-/

namespace Sys2Proof.Machine

/-! ### How they are written -/

/-- The layout of a 10-bit target above the reserved bit 0 (R75). -/
theorem written_imm10 {i : Instr} {mnemonic : String} {imm10 : BitVec 10}
    (h : Asm.opcodeOfMnemonic mnemonic.toList = some i.opcode) (hfield : i.field = layoutImm10 imm10) :
    Written i mnemonic i.operands i.opcode i.format (i.opcode.toNat <<< 11 ||| imm10.toNat <<< 1) := by
  have hw := written_of_mnemonic i h
  rwa [hfield, layoutImm10_toNat] at hw

/-! ### Transfers and the frame -/

section
variable {s t u : State} {parts : List Part}

/-- A target has 10 bits, so the 11-bit pc holds it as it stands (R33, R150). -/
theorem wentTo_jumpTo (hrun : u.run = s.run) (target : Index) : WentTo s (u.jumpTo target) target :=
  ⟨BitVec.toNat_setWidth_of_le (by decide), hrun⟩

theorem KeptBut.refl (s : State) (parts : List Part) : KeptBut s s parts := by
  refine ⟨fun p _ => ?_, rfl, rfl, rfl⟩
  cases p with
  | registers | memory => exact fun _ => rfl
  | flags => exact ⟨rfl, rfl⟩
  | page | stack | trace => rfl

theorem Part.Kept.trans {p : Part} (hst : p.Kept s t) (htu : p.Kept t u) : p.Kept s u := by
  cases p with
  | registers | memory => exact fun x => (htu x).trans (hst x)
  | flags => exact ⟨htu.1.trans hst.1, htu.2.trans hst.2⟩
  | page | stack | trace => exact Eq.trans htu hst

/-- What two changes in a row both keep. -/
theorem KeptBut.trans (hst : KeptBut s t parts) (htu : KeptBut t u parts) : KeptBut s u parts := by
  obtain ⟨hparts, hir, hcfg, hhost⟩ := hst
  obtain ⟨hparts', hir', hcfg', hhost'⟩ := htu
  exact ⟨fun p hp => (hparts p hp).trans (hparts' p hp), hir'.trans hir, hcfg'.trans hcfg, hhost'.trans hhost⟩

/-- A taken transfer keeps whatever was kept. -/
theorem KeptBut.jumpTo (h : KeptBut s u parts) (target : Index) : KeptBut s (u.jumpTo target) parts := by
  obtain ⟨hparts, hmodel⟩ := h
  refine ⟨fun p hp => ?_, hmodel⟩
  have hkept : p.Kept s u := hparts p hp
  cases p <;> exact hkept

theorem keptBut_stack (s : State) (stk : CallStack) : KeptBut s { s with stack := stk } [.stack] := by
  refine ⟨fun p hp => ?_, rfl, rfl, rfl⟩
  cases p with
  | stack => exact absurd (List.mem_singleton.2 rfl) hp
  | registers | flags | page | memory | trace => exact (KeptBut.refl s [.stack]).1 _ hp

end

/-! ### The conditional branches as one family (R150) -/

/-- A branch goes to its target exactly under its condition, and changes nothing but the pc and the run state. -/
theorem exec_branch_effect {i : Instr} {s : State} {taken : Bool} {target : Index} {condition : Prop}
    [Decidable condition] (he : exec i s = .next (s.branch taken target)) (hc : taken = true ↔ condition) :
    ∃ t, exec i s = .next t ∧ KeptBut s t [] ∧ if condition then WentTo s t target else MovedOn s t := by
  have hself := KeptBut.refl s []
  cases taken with
  | true =>
    refine ⟨_, he, hself.jumpTo target, ?_⟩
    rw [if_pos (hc.1 rfl)]
    exact wentTo_jumpTo rfl target
  | false =>
    refine ⟨_, he, hself.advance, ?_⟩
    rw [if_neg fun h => Bool.false_ne_true (hc.2 h)]
    exact movedOn_advance rfl rfl

/-! ### The stack -/

theorem exec_cal (imm10 : BitVec 10) (s : State) :
    exec (.cal imm10) s = .next ({ s with stack := s.stack.push s.returnAddress }.jumpTo imm10) := by
  rfl

theorem exec_ret (s : State) : exec .ret s = execRet s := by
  rfl

/-- The return address wraps to 0 only from index 1023 (R156). -/
theorem State.returnAddress_toNat (s : State) : s.returnAddress.toNat = (s.pc.toNat + 1) % 1024 := by
  simp only [State.returnAddress, BitVec.toNat_setWidth, BitVec.toNat_add, BitVec.toNat_ofNat]
  omega

/-- R36's test of the sum, entry by entry. -/
theorem CallStack.isEmpty_iff_getElem (stk : CallStack) : stk.isEmpty = true ↔ ∀ i : Fin 16, stk[i] = 0#10 := by
  rw [CallStack.isEmpty_iff]
  constructor
  · intro h i
    exact h _ (Vector.mem_toList_iff.2 (Vector.getElem_mem i.isLt))
  · intro h v hv
    obtain ⟨i, hi, rfl⟩ := Vector.getElem_of_mem (Vector.mem_toList_iff.1 hv)
    exact h ⟨i, hi⟩

/-! ### The statements -/

/-- Settles O34: the jump is the whole effect. -/
theorem jmpResult : Obligations.JmpResult := by
  intro imm10 s
  exact ⟨written_imm10 rfl rfl, _, rfl, wentTo_jumpTo rfl imm10, (KeptBut.refl s []).jumpTo imm10⟩

/-- Settles O35: the four differ only in the flag they test and its sense. -/
theorem conditionalBranchResults : Obligations.ConditionalBranchResults := by
  intro imm10 s
  have hnot (flag : Bool) : (!flag) = true ↔ flag = false := by simp
  exact ⟨⟨written_imm10 rfl rfl, exec_branch_effect rfl .rfl⟩, ⟨written_imm10 rfl rfl, exec_branch_effect rfl (hnot _)⟩,
    ⟨written_imm10 rfl rfl, exec_branch_effect rfl .rfl⟩, ⟨written_imm10 rfl rfl, exec_branch_effect rfl (hnot _)⟩⟩

/-- Settles O36: a push, then a jump. -/
theorem calResult : Obligations.CalResult := by
  intro imm10 s
  refine ⟨written_imm10 rfl rfl, _, exec_cal imm10 s, wentTo_jumpTo rfl imm10, ?_,
    CallStack.push_succ s.stack s.returnAddress, (keptBut_stack s _).jumpTo imm10⟩
  rw [State.jumpTo_stack, CallStack.push_zero, State.returnAddress_toNat]

/-- Settles O37: only a stack of zeros makes RET a NOP, so a 0 above another entry is an address like any other. -/
theorem retResult : Obligations.RetResult := by
  intro s
  refine ⟨written_of_mnemonic .ret rfl, ?_⟩
  rw [exec_ret]
  rcases execRet_cases s with ⟨hempty, he⟩ | ⟨hempty, he⟩
  · refine ⟨_, he, ?_⟩
    rw [if_pos ((CallStack.isEmpty_iff_getElem _).1 hempty)]
    exact ⟨movedOn_advance rfl rfl, (KeptBut.refl s []).advance⟩
  · refine ⟨_, he, ?_⟩
    rw [if_neg fun hzero => Bool.false_ne_true (hempty.symm.trans ((CallStack.isEmpty_iff_getElem _).2 hzero))]
    exact ⟨wentTo_jumpTo rfl s.stack.top, CallStack.popped_lt s.stack, CallStack.popped_last s.stack,
      (keptBut_stack s _).jumpTo s.stack.top⟩

/-- Settles O38: below 1023 the pushed address is not 0, so the RET pops it and undoes the push. -/
theorem callThenReturn : Obligations.CallThenReturn := by
  intro imm10 s hpc
  obtain ⟨-, t, ht, ⟨-, hrunt⟩, htop, hbelow, hkeptt⟩ := calResult imm10 s
  have htop' : t.stack[0].toNat = s.pc.toNat + 1 := by omega
  have hsome : ¬ ∀ i : Fin 16, t.stack[i] = 0#10 := by
    intro h
    have hzero : t.stack[0] = 0#10 := h 0
    simp [hzero] at htop'
  obtain ⟨-, u, hu, hret⟩ := retResult t
  rw [if_neg hsome] at hret
  obtain ⟨⟨hpcu, hrunu⟩, habove, hlast, hkeptu⟩ := hret
  exact ⟨t, u, ht, hu, hpcu.trans htop', hrunu.trans hrunt, fun i hi => (habove i hi).trans (hbelow i hi), hlast,
    hkeptt.trans hkeptu⟩

end Sys2Proof.Machine
end

section
/-!
PROOFS. Memory and page (20_memory R52 to R54, 43_memory_page R180 to R183). REA and STO share their layout, their
address and their fault, each said once; PAS turns on whether its OR fits the page register.
-/

namespace Sys2Proof.Machine

/-! ### How they are written -/

/-- The layout of REA and STO: ALU's, with the offset in the place of the second source (R73, R180). -/
theorem written_memory {i : Instr} {mnemonic : String} {a : Reg} {imm3 : BitVec 3} {c : Reg}
    (h : Asm.opcodeOfMnemonic mnemonic.toList = some i.opcode) (hfield : i.field = layoutAlu a.bits imm3 c.bits) :
    Written i mnemonic i.operands i.opcode i.format
      (i.opcode.toNat <<< 11 ||| a.number <<< 6 ||| imm3.toNat <<< 3 ||| c.number) := by
  have hw := written_of_mnemonic i h
  rw [hfield, layoutAlu_toNat] at hw
  simpa only [Reg.toNat_bits, Nat.or_assoc] using hw

/-- PAS: the immediate in the top bits, the register in bits 5:3 (R78). -/
theorem written_pas (imm3 : BitVec 3) (reg : Reg) :
    Written (.pas imm3 reg) "PAS" [imm3.toNat, reg.number] 25 .imm3OrReg
      (0xC800 ||| imm3.toNat <<< 8 ||| reg.number <<< 3) := by
  have hw := written_of_mnemonic (.pas imm3 reg) (mnemonic := "PAS") rfl
  rwa [Instr.field, layoutImm3OrReg_toNat, Reg.toNat_bits, ← Nat.or_assoc] at hw

/-- PAG: the register in the lowest bits (R79). -/
theorem written_pag (reg : Reg) :
    Written (.pag reg) "PAG" [reg.number] 26 .regOnly (0xD000 ||| reg.number) := by
  have hw := written_of_mnemonic (.pag reg) (mnemonic := "PAG") rfl
  rwa [Instr.field, layoutRegOnly_toNat, Reg.toNat_bits] at hw

/-! ### The data address (R52) -/

theorem linearAddr_le {offset : Nat} (page : Page) (h : offset ≤ 255) : linearAddr page offset ≤ 2047 := by
  have hpage := page.isLt
  unfold linearAddr
  omega

/-- Up to 2047 the linear address fits the 11 bits of a byte address. -/
theorem ofNat_linearAddr_toNat {page : Page} {offset : Nat} (h : linearAddr page offset ≤ 2047) :
    (BitVec.ofNat 11 (linearAddr page offset)).toNat = page.toNat * 256 + offset :=
  (BitVec.toNat_ofNat _ _).trans (Nat.mod_eq_of_lt (Nat.lt_succ_of_le h))

/-- The model's DataAddr follows R52 under each of its three policies. -/
theorem dataAddrRule_dataAddr (policy : OffsetOverflow) (page : Page) (offset : Nat) :
    DataAddrRule policy page offset (dataAddr policy page offset) := by
  unfold DataAddrRule
  rcases dataAddr_cases policy page offset with
    ⟨hle, ha⟩ | ⟨hgt, rfl, ha⟩ | ⟨hgt, rfl, hend, ha⟩ | ⟨hgt, rfl, hend, ha⟩ | ⟨hgt, rfl, ha⟩
  · rw [if_pos hle]
    exact ⟨_, ha, ofNat_linearAddr_toNat (linearAddr_le page hle)⟩
  · rw [if_neg hgt.not_ge]
    exact ha
  · rw [if_neg hgt.not_ge]
    exact (if_neg hend.not_ge).mpr ha
  · rw [if_neg hgt.not_ge]
    exact (if_pos hend).mpr ⟨_, ha, ofNat_linearAddr_toNat hend⟩
  · rw [if_neg hgt.not_ge]
    exact ⟨_, ha, ofNat_linearAddr_toNat (linearAddr_le page (by omega))⟩

/-! ### What they do -/

section
variable {a : Reg} {imm3 : BitVec 3} {s : State}

/-- REA with an effective address reads the byte there and moves on (R180). -/
theorem exec_rea_of_effectiveAddr {addr : Addr} (h : s.effectiveAddr a imm3 = some addr) (c : Reg) :
    exec (.rea a imm3 c) s = .next (s.writeReg c (s.readByte addr)).advance := by
  rcases execRea_cases a imm3 c s with ⟨addr', h', hexec⟩ | ⟨hnone, -⟩
  · cases h.symm.trans h'
    exact hexec
  · cases h.symm.trans hnone

theorem exec_rea_of_effectiveAddr_none (h : s.effectiveAddr a imm3 = none) (c : Reg) :
    exec (.rea a imm3 c) s = .next (s.raiseFault .dataAddressOutOfRange) := by
  rcases execRea_cases a imm3 c s with ⟨_, hsome, -⟩ | ⟨-, hexec⟩
  · cases h.symm.trans hsome
  · exact hexec

theorem exec_sto_of_effectiveAddr_none (h : s.effectiveAddr a imm3 = none) (c : Reg) :
    exec (.sto a imm3 c) s = .next (s.raiseFault .dataAddressOutOfRange) := by
  rcases execSto_cases a imm3 c s with ⟨_, hsome, -⟩ | ⟨-, hexec⟩
  · cases h.symm.trans hsome
  · exact hexec

/-- PAS with a page to set sets it and moves on (R182). -/
theorem exec_pas_of_pageOf {reg : Reg} {p : Page} (h : pageOf s.cfg.pageOverflow (s.pageValue imm3 reg) = some p) :
    exec (.pas imm3 reg) s = .next { s with page := p }.advance := by
  rcases execPas_cases imm3 reg s with ⟨p', h', hexec⟩ | ⟨hnone, -⟩
  · cases h.symm.trans h'
    exact hexec
  · cases h.symm.trans hnone

theorem exec_pas_of_pageOf_none {reg : Reg} (h : pageOf s.cfg.pageOverflow (s.pageValue imm3 reg) = none) :
    exec (.pas imm3 reg) s = .next (s.raiseFault .pageOutOfRange) := by
  rcases execPas_cases imm3 reg s with ⟨_, hsome, -⟩ | ⟨-, hexec⟩
  · cases h.symm.trans hsome
  · exact hexec

end

theorem exec_pag (reg : Reg) (s : State) : exec (.pag reg) s = .next (s.writeReg reg (s.page.setWidth 8)).advance := by
  rfl

theorem keptBut_writeByte (s : State) (addr : Addr) (v : Byte) : KeptBut s (s.writeByte addr v) [.memory] := by
  refine ⟨fun p hp => ?_, rfl, rfl, rfl⟩
  cases p with
  | memory => exact absurd (List.mem_singleton.2 rfl) hp
  | registers | flags | page | stack | trace => exact (KeptBut.refl s [.memory]).1 _ hp

theorem keptBut_page (s : State) (page : Page) : KeptBut s { s with page := page } [.page] := by
  refine ⟨fun p hp => ?_, rfl, rfl, rfl⟩
  cases p with
  | page => exact absurd (List.mem_singleton.2 rfl) hp
  | registers | flags | stack | memory | trace => exact (KeptBut.refl s [.page]).1 _ hp

/-! ### The page value (R182) -/

/-- The OR of PAS, on numbers; the immediate is zero-extended. -/
theorem State.pageValue_toNat (s : State) (imm3 : BitVec 3) (reg : Reg) :
    (s.pageValue imm3 reg).toNat = imm3.toNat ||| (s.readReg reg).toNat := by
  rw [State.pageValue, BitVec.toNat_or, BitVec.toNat_setWidth_of_le (by decide)]

/-- A value up to 7 is its own low 3 bits. -/
theorem page_setWidth_toNat {v : Byte} (h : v.toNat ≤ 7) : (v.setWidth 3).toNat = v.toNat := by
  rw [BitVec.toNat_setWidth]
  exact Nat.mod_eq_of_lt (Nat.lt_succ_of_le h)

/-- Masking with 7 is reduction modulo 8. -/
theorem page_mask_toNat (v : Byte) : ((v &&& 7#8).setWidth 3).toNat = v.toNat % 8 := by
  have hmask : (v &&& 7#8).toNat = v.toNat % 8 := (BitVec.toNat_and v 7#8).trans (Nat.and_two_pow_sub_one_eq_mod _ 3)
  rw [page_setWidth_toNat (by omega), hmask]

/-! ### The statements -/

/-- Settles O40: the address follows R52; with one the byte is read, without one the fault is taken. -/
theorem reaResult : Obligations.ReaResult := by
  intro a imm3 c s
  refine ⟨written_memory rfl rfl, dataAddrRule_dataAddr _ _ _, fun addr haddr => ?_, fun hnone => ?_⟩
  · exact ⟨_, exec_rea_of_effectiveAddr haddr c, regWritten_writeReg s c _, movedOn_advance rfl rfl,
      (keptBut_writeReg s c _).advance⟩
  · exact ⟨_, exec_rea_of_effectiveAddr_none hnone c, tookFault_raiseFault s _⟩

/-- Settles O41: REA's address and fault; the store is one write to memory, which a read finds where it was made. -/
theorem stoResult : Obligations.StoResult := by
  intro a imm3 c s hwf
  refine ⟨written_memory rfl rfl, dataAddrRule_dataAddr _ _ _, fun addr haddr => ?_, fun hnone => ?_⟩
  · exact ⟨_, exec_sto_of_effectiveAddr haddr c, Memory.read_write_same s.mem addr _ hwf,
      fun b hb => Memory.read_write_other s.mem addr b _ hb, movedOn_advance rfl rfl,
      (keptBut_writeByte s addr _).advance⟩
  · exact ⟨_, exec_sto_of_effectiveAddr_none hnone c, tookFault_raiseFault s _⟩

/-- Settles O42: the value fits, or PAGE_OVERFLOW decides; the fetch reads memory and the pc alone. -/
theorem pasResult : Obligations.PasResult := by
  intro imm3 reg s
  refine ⟨written_pas imm3 reg, fun _ => rfl, fun _ => rfl, ?_⟩
  rw [← State.pageValue_toNat]
  rcases pageOf_cases s.cfg.pageOverflow (s.pageValue imm3 reg) with ⟨hle, hp⟩ | ⟨hgt, hpolicy, hp⟩ | ⟨hgt, hpolicy, hp⟩
  · refine ⟨_, exec_pas_of_pageOf hp, (if_pos hle).mpr ?_⟩
    exact ⟨page_setWidth_toNat hle, movedOn_advance rfl rfl, (keptBut_page s _).advance⟩
  · refine ⟨_, exec_pas_of_pageOf_none hp, (if_neg hgt).mpr ?_⟩
    rw [hpolicy]
    exact tookFault_raiseFault s _
  · refine ⟨_, exec_pas_of_pageOf hp, (if_neg hgt).mpr ?_⟩
    rw [hpolicy]
    exact ⟨page_mask_toNat _, movedOn_advance rfl rfl, (keptBut_page s _).advance⟩

/-- Settles O43: the page's 3 bits, zero-extended, are the byte of its number. -/
theorem pagResult : Obligations.PagResult := by
  intro reg s
  rw [BitVec.ofNat_toNat]
  exact ⟨written_pag reg, _, exec_pag reg s, regWritten_writeReg s reg _, movedOn_advance rfl rfl,
    (keptBut_writeReg s reg _).advance⟩

end Sys2Proof.Machine
end

section
/-!
PROOFS. System and I/O (44_io_system R200 to R204, 60_exceptions R279). A GPI has two cases, the host's byte and the
wait. The host's answers are plain data that no step changes, so a host that always answers does so at every cycle of
a run.
-/

namespace Sys2Proof.Machine

/-! ### How they are written -/

/-- The layout of GPI: the port above the register number (R76). -/
theorem written_gpi (reg : Reg) (imm3 : BitVec 3) :
    Written (.gpi reg imm3) "GPI" [reg.number, imm3.toNat] 22 .imm3ToReg
      (0xB000 ||| imm3.toNat <<< 3 ||| reg.number) := by
  have hw := written_of_mnemonic (.gpi reg imm3) (mnemonic := "GPI") rfl
  rwa [Instr.field, layoutImm3ToReg_toNat, Reg.toNat_bits, ← Nat.or_assoc] at hw

/-- The layout of GPO: the register number above the port (R77). -/
theorem written_gpo (reg : Reg) (imm3 : BitVec 3) :
    Written (.gpo reg imm3) "GPO" [reg.number, imm3.toNat] 23 .regToImm3
      (0xB800 ||| reg.number <<< 6 ||| imm3.toNat <<< 3) := by
  have hw := written_of_mnemonic (.gpo reg imm3) (mnemonic := "GPO") rfl
  rwa [Instr.field, layoutRegToImm3_toNat, Reg.toNat_bits, ← Nat.or_assoc] at hw

/-! ### What they do -/

theorem exec_nop (s : State) : exec .nop s = .next s.advance := by
  rfl

theorem exec_hlt (s : State) : exec .hlt s = .next s.halt := by
  rfl

theorem exec_gpo (reg : Reg) (imm3 : BitVec 3) (s : State) :
    exec (.gpo reg imm3) s = .next (s.emit (.outEvent imm3 (s.readReg reg))).advance := by
  rfl

theorem exec_bel (s : State) : exec .bel s = .next (s.emit .bellEvent).advance := by
  rfl

section
variable {imm3 : BitVec 3} {s : State}

/-- GPI with an answer takes the byte and moves on (R202). -/
theorem exec_gpi_of_answer {v : Byte} (h : s.host.answer imm3 s.trace = some v) (reg : Reg) :
    exec (.gpi reg imm3) s = .next ((s.emit (.inEvent imm3 v)).writeReg reg v).advance := by
  rcases execGpi_cases reg imm3 s with ⟨v', h', hexec⟩ | ⟨hnone, -⟩
  · cases h.symm.trans h'
    exact hexec
  · cases h.symm.trans hnone

/-- GPI without an answer waits (R279, log 6). -/
theorem exec_gpi_of_answer_none (h : s.host.answer imm3 s.trace = none) (reg : Reg) :
    exec (.gpi reg imm3) s = .next s := by
  rcases execGpi_cases reg imm3 s with ⟨_, hsome, -⟩ | ⟨-, hexec⟩
  · cases h.symm.trans hsome
  · exact hexec

end

/-! ### The frame -/

theorem keptBut_emit (s : State) (e : Event) : KeptBut s (s.emit e) [.trace] := by
  refine ⟨fun p hp => ?_, rfl, rfl, rfl⟩
  cases p with
  | trace => exact absurd (List.mem_singleton.2 rfl) hp
  | registers | flags | page | stack | memory => exact (KeptBut.refl s [.trace]).1 _ hp

theorem keptBut_halt (s : State) : KeptBut s s.halt [] := by
  refine ⟨fun p hp => ?_, rfl, rfl, rfl⟩
  have hkept : p.Kept s s := (KeptBut.refl s []).1 p hp
  cases p <;> exact hkept

/-- An input touches the trace, then the register. -/
theorem keptBut_input (s : State) (e : Event) (reg : Reg) (v : Byte) :
    KeptBut s ((s.emit e).writeReg reg v) [.registers, .trace] :=
  ((keptBut_emit s e).mono (by simp)).trans ((keptBut_writeReg (s.emit e) reg v).mono (by simp))

/-! ### The host along a run -/

/-- No step changes the host (log 2). -/
theorem StepEnds.host_eq {s t : State} (h : StepEnds s t) : t.host = s.host := by
  cases h with
  | executed i t _ he =>
    obtain ⟨u, hw, ht⟩ := he.writes
    obtain ⟨-, -, -, -, hhost⟩ := hw.frame
    rw [ht]
    exact hhost
  | rejected => rfl

theorem runCycles_host (k : Nat) (s : State) : (runCycles k s).host = s.host :=
  runCycles_keeps (P := fun u => u.host = s.host) (fun _ _ hu h => (ends_of_step h).host_eq.trans hu) k rfl

/-- The core waits exactly when its next cycle runs a GPI that the host does not answer (R279). -/
theorem State.waitsForInput_iff (s : State) :
    s.waitsForInput = true ↔
      s.Cycles ∧ ∃ reg port, s.fetched = .instr (.gpi reg port) ∧ s.host.answer port s.trace = none := by
  unfold State.waitsForInput
  split
  · next reg port hrun hf =>
    have hcycles : s.Cycles ↔ s.pc < 1024#11 := and_iff_right hrun
    have hfetched : s.fetched = .instr (.gpi reg port) := hf
    simp [hcycles, hfetched]
  · next hother =>
    refine iff_of_false Bool.false_ne_true ?_
    rintro ⟨⟨hrun, -⟩, reg, port, hf, -⟩
    exact hother reg port hrun hf

/-- A list that is not empty has a byte to repeat at every count. -/
theorem repeating_answer_isSome {bytes : List Byte} (h : bytes ≠ []) (port : Port) (trace : List Event) :
    ((HostInput.repeating bytes).answer port trace).isSome = true := by
  rw [HostInput.answer_repeating, List.getElem?_eq_getElem (Nat.mod_lt _ (List.length_pos_iff.2 h))]
  rfl

/-! ### The statements -/

/-- Settles O47: the two answers of the host are the two cases. -/
theorem gpiResult : Obligations.GpiResult := by
  intro reg imm3 s
  refine ⟨written_gpi reg imm3, fun v hv => ?_, fun hnone => exec_gpi_of_answer_none hnone reg⟩
  exact ⟨_, exec_gpi_of_answer hv reg, rfl, regWritten_writeReg s reg v, movedOn_advance rfl rfl,
    (keptBut_input s _ reg v).advance⟩

/-- Settles O49: the InEvent in the trace is what moves the list on. -/
theorem streamInputIsUsedInOrder : Obligations.StreamInputIsUsedInOrder := by
  intro s bytes reg imm3 hhost hlen
  have hv : bytes[inputsTaken s.trace]? = some bytes[inputsTaken s.trace] := List.getElem?_eq_getElem hlen
  have hanswer : s.host.answer imm3 s.trace = some bytes[inputsTaken s.trace] := by
    rw [hhost, HostInput.answer_stream, hv]
  obtain ⟨-, htakes, -⟩ := gpiResult reg imm3 s
  obtain ⟨t, ht, htrace, hreg, -, -, -, -, hkept⟩ := htakes _ hanswer
  have hcount : inputsTaken t.trace = inputsTaken s.trace + 1 := by
    rw [htrace, inputsTaken_append_inEvent]
  refine ⟨t, _, ht, hv, hreg, hcount, fun port => ?_⟩
  rw [hkept, hhost, HostInput.answer_stream, hcount]

/-- Settles O60: the host of every state of the run is the first state's, which answers, so each GPI takes a byte. -/
theorem alwaysAnsweringHostNeverBlocks : Obligations.AlwaysAnsweringHostNeverBlocks := by
  refine ⟨fun bytes port trace h => repeating_answer_isSome h port trace, fun s k hanswers => ?_⟩
  rw [← runCycles_host k s] at hanswers ⊢
  generalize runCycles k s = u at hanswers ⊢
  constructor
  · refine Bool.eq_false_iff.2 fun hwaits => ?_
    obtain ⟨-, -, port, -, hnone⟩ := u.waitsForInput_iff.1 hwaits
    have hsome := hanswers port u.trace
    simp [hnone] at hsome
  · intro t reg imm3 hf hstep
    obtain ⟨v, hv⟩ := Option.isSome_iff_exists.1 (hanswers imm3 u.trace)
    obtain ⟨-, htakes, -⟩ := gpiResult reg imm3 u.latch
    obtain ⟨t', ht', htrace, hreg, hmoved, -⟩ := htakes v hv
    rw [step_of_fetched_instr (cycles_of_step hstep) hf] at hstep
    cases ht'.symm.trans hstep
    exact ⟨v, hv, htrace, hreg, hmoved⟩

/-- Settles O45: the word 0 is NOP, and the pc's move is its whole effect. -/
theorem nopResult : Obligations.NopResult := by
  intro s
  exact ⟨written_of_mnemonic .nop rfl, _, exec_nop s, movedOn_advance rfl rfl, (KeptBut.refl s []).advance⟩

/-- Settles O46: a Halted core has no cycle. -/
theorem hltResult : Obligations.HltResult := by
  intro s
  refine ⟨written_of_mnemonic .hlt rfl, _, exec_hlt s, rfl, rfl, keptBut_halt s, fun u hu => ?_⟩
  cases (step_of_halted (s := s.halt) rfl).symm.trans hu

/-- Settles O50: the host is not asked, so there is one case. -/
theorem gpoResult : Obligations.GpoResult := by
  intro reg imm3 s
  exact ⟨written_gpo reg imm3, _, exec_gpo reg imm3 s, rfl, movedOn_advance rfl rfl, (keptBut_emit s _).advance⟩

/-- Settles O51: the event, then a NOP. -/
theorem belResult : Obligations.BelResult := by
  intro s
  exact ⟨written_of_mnemonic .bel rfl, _, exec_bel s, rfl, movedOn_advance rfl rfl, (keptBut_emit s _).advance⟩

end Sys2Proof.Machine
end

section
/-!
PROOFS. The assembler's names, shorthands, errors and comments (49_assembler R220 to R239). `Session.Named` is what
pass 1 keeps of the symbol table; `Session.withoutSources` is the session without the text of its lines, on which the
result depends alone.
-/

namespace Sys2Proof.Asm

/-! ### Names -/

@[simp] theorem lower_lower (t : Text) : lower (lower t) = lower t := by
  simp [lower, Function.comp_def]

theorem findSymbol_eq_none_iff {symbols : List Symbol} {name : Text} :
    findSymbol symbols name = none ↔ ∀ e ∈ symbols, e.name ≠ lower name := by
  simp [findSymbol]

/-- A name that passes R228's tests is lower-cased and new. -/
theorem fresh_of_checkName {symbols : List Symbol} {t name : Text} (h : checkName symbols t = .ok name) :
    lower name = name ∧ ∀ e ∈ symbols, e.name ≠ name := by
  unfold checkName at h
  split at h
  next => cases h
  next =>
    split at h
    next => cases h
    next =>
      split at h
      next => cases h
      next hfind =>
        cases h
        exact ⟨lower_lower t, findSymbol_eq_none_iff.mp (by simpa using hfind)⟩

/-- A variable's entry before its address is known (R226). -/
def variableEntry (name : Text) : Symbol := ⟨name, .dataVariable, .unresolved⟩

/-- The table's names are lower-cased and pairwise different, the seeded entries stand first, and the variables'
entries stand in declaration order. -/
structure Session.Named (cfg : AsmConfig) (s : Session) : Prop where
  distinct : (s.symbols.map Symbol.name).Nodup
  lowered : ∀ e ∈ s.symbols, lower e.name = e.name
  seeded : seededSymbols cfg <+: s.symbols
  declared : (s.varOrder.map variableEntry).Sublist s.symbols

theorem initial_named (cfg : AsmConfig) : (Session.initial cfg).Named cfg := by
  obtain ⟨portAliases⟩ := cfg
  refine ⟨?_, ?_, List.prefix_refl _, List.nil_sublist _⟩
  · cases portAliases <;> decide
  · cases portAliases <;> decide

theorem Session.Named.declare {cfg : AsmConfig} {s : Session} (hs : s.Named cfg) {t name : Text}
    (hn : checkName s.symbols t = .ok name) (source : Text) (toks : List Text) (kind : LineKind)
    (symbolKind : SymbolKind) (value : SymbolValue) :
    (s.declare source toks kind ⟨name, symbolKind, value⟩).Named cfg := by
  obtain ⟨hdistinct, hlowered, hseeded, hdeclared⟩ := hs
  obtain ⟨hlower, hnew⟩ := fresh_of_checkName hn
  refine ⟨?_, ?_, hseeded.trans (List.prefix_append _ _), hdeclared.trans (List.sublist_append_left _ _)⟩
  · simpa [Session.declare, List.nodup_append, hdistinct] using hnew
  · simpa [Session.declare, or_imp, forall_and, hlower] using hlowered

theorem LineEnds.named {cfg : AsmConfig} {s u : Session} {source : Text} (h : LineEnds s source u)
    (hs : s.Named cfg) : u.Named cfg := by
  cases h with
  | rejected | dropped | instruction => exact ⟨hs.distinct, hs.lowered, hs.seeded, hs.declared⟩
  | subroutine toks t name hn | definition toks t name _ hn => exact hs.declare hn _ _ _ _ _
  | dataVariable toks t name v hn =>
    obtain ⟨hdistinct, hlowered, hseeded, -⟩ := hs.declare hn source toks .dataVariable .dataVariable .unresolved
    refine ⟨hdistinct, hlowered, hseeded, ?_⟩
    rw [List.map_append]
    exact hs.declared.append (List.Sublist.refl [variableEntry name])

theorem passOne_named (cfg : AsmConfig) (lines : List Text) : (passOne cfg lines).Named cfg :=
  passOne_keeps cfg (initial_named cfg) (fun _ _ _ hs h => h.named hs) lines

/-! ### The symbol table between the passes -/

@[simp] theorem resolveSymbol_name (count : Nat) (varOrder : List Text) (e : Symbol) :
    (resolveSymbol count varOrder e).name = e.name := by
  unfold resolveSymbol
  split <;> rfl

theorem resolveSymbol_variableEntry {count i : Nat} {varOrder : List Text} {name : Text}
    (h : varOrder.findIdx? (· == name) = some i) :
    resolveSymbol count varOrder (variableEntry name) = ⟨name, .dataVariable, .value (count <<< 1 + i)⟩ := by
  simp [resolveSymbol, variableEntry, h]

/-- In a list without repetition an element is found at its own position. -/
theorem findIdx?_beq_of_nodup {α : Type} [BEq α] [LawfulBEq α] {l : List α} (hl : l.Nodup) {i : Nat} {a : α}
    (h : l[i]? = some a) : l.findIdx? (· == a) = some i := by
  obtain ⟨hi, rfl⟩ := List.getElem?_eq_some_iff.mp h
  exact List.findIdx?_eq_some_iff_findIdx_eq.mpr ⟨hi, hl.idxOf_getElem i hi⟩

/-- Where names are pairwise different, a lower-cased name finds its own entry. -/
theorem findSymbol_of_mem {symbols : List Symbol} (hd : (symbols.map Symbol.name).Nodup) {e : Symbol}
    (he : e ∈ symbols) (hlower : lower e.name = e.name) : findSymbol symbols e.name = some e := by
  cases hfind : findSymbol symbols e.name with
  | none => exact absurd hlower.symm (findSymbol_eq_none_iff.mp hfind e he)
  | some d =>
    have hname : d.name = lower e.name := by simpa using List.find?_some hfind
    rw [List.inj_on_of_nodup_map hd (List.mem_of_find?_eq_some hfind) he (hname.trans hlower)]

theorem findSymbol_map_resolveSymbol (count : Nat) (varOrder : List Text) (symbols : List Symbol) (name : Text) :
    findSymbol (symbols.map (resolveSymbol count varOrder)) name =
      (findSymbol symbols name).map (resolveSymbol count varOrder) := by
  simp [findSymbol, List.find?_map]

section
variable {cfg : AsmConfig} {s : Session}

theorem Session.Named.varOrder_nodup (hs : s.Named cfg) : s.varOrder.Nodup := by
  have hnames : ((s.varOrder.map variableEntry).map Symbol.name).Nodup := hs.distinct.sublist (hs.declared.map _)
  simpa [variableEntry, Function.comp_def] using hnames

/-- The i-th variable's name finds its entry, whose value is its address (R232). -/
theorem Session.Named.findSymbol_variable (hs : s.Named cfg) {i : Nat} {name : Text}
    (h : s.varOrder[i]? = some name) :
    findSymbol s.resolvedSymbols name = some ⟨name, .dataVariable, .value (s.instructionCounter <<< 1 + i)⟩ := by
  have hmem : variableEntry name ∈ s.symbols :=
    hs.declared.subset (List.mem_map_of_mem (List.mem_of_getElem? h))
  have hfind : findSymbol s.symbols name = some (variableEntry name) :=
    findSymbol_of_mem hs.distinct hmem (hs.lowered _ hmem)
  rw [Session.resolvedSymbols, findSymbol_map_resolveSymbol, hfind, Option.map_some,
    resolveSymbol_variableEntry (findIdx?_beq_of_nodup hs.varOrder_nodup h)]

end

/-! ### The shorthands -/

/-- Only two operands of RSH and one of PAS are expanded (R234). -/
theorem expandShorthand_of_not_shorthand {op : BitVec 5} {vals : List Int} (hrsh : ¬(op = 11 ∧ vals.length = 2))
    (hpas : ¬(op = 25 ∧ vals.length = 1)) : expandShorthand op vals = vals := by
  unfold expandShorthand
  split
  next hop => exact absurd ⟨BitVec.eq_of_toNat_eq hop, rfl⟩ hrsh
  next hop => exact absurd ⟨BitVec.eq_of_toNat_eq hop, rfl⟩ hpas
  next => rfl

section
variable (symbols : List Symbol)

/-- Pass 2 on an instruction record: its operands' values, expanded, then checked (R233 to R236). -/
theorem resolveRecord_eq_map_format {r : Record} {op : BitVec 5} (hk : r.kind = .instruction)
    (hop : r.opcode = some op) :
    resolveRecord symbols r = r.format.map fun fmt =>
      ((operandValues symbols (r.tokens.drop 1)).map (expandShorthand op)).bind (checkOperands op fmt) := by
  simp only [resolveRecord, hk, hop]
  cases r.format with
  | some => cases operandValues symbols (r.tokens.drop 1) <;> rfl
  | none => rfl

/-- Operand lists of the same expanded values resolve alike. -/
theorem resolveRecord_eq_of_expanded {r : Record} {op : BitVec 5} (hop : r.opcode = some op) {toks : List Text}
    (h : (operandValues symbols (r.tokens.drop 1)).map (expandShorthand op) =
      (operandValues symbols (toks.drop 1)).map (expandShorthand op)) :
    resolveRecord symbols r = resolveRecord symbols { r with tokens := toks } := by
  have hopcode : { r with tokens := toks }.opcode = some op := hop
  by_cases hk : r.kind = .instruction
  · have hkind : { r with tokens := toks }.kind = .instruction := hk
    rw [resolveRecord_eq_map_format symbols hk hop, resolveRecord_eq_map_format symbols hkind hopcode, h]
  · have hkind : { r with tokens := toks }.kind ≠ .instruction := hk
    rw [resolveRecord_of_not_instruction symbols hk, resolveRecord_of_not_instruction symbols hkind]

/-- `RSH a c` and `RSH a 0 c` (R234). -/
theorem expanded_operandValues_rsh (a c : Text) :
    (operandValues symbols [a, c]).map (expandShorthand 11) =
      (operandValues symbols [a, ['0'], c]).map (expandShorthand 11) := by
  simp only [operandValues]
  cases operandValue symbols a with
  | error => rfl
  | ok => cases operandValue symbols c <;> rfl

/-- `PAS b` and `PAS 0 b` (R234). -/
theorem expanded_operandValues_pas (b : Text) :
    (operandValues symbols [b]).map (expandShorthand 25) =
      (operandValues symbols [['0'], b]).map (expandShorthand 25) := by
  simp only [operandValues]
  cases operandValue symbols b <;> rfl

end

/-! ### Errors -/

/-- An error of a line is one more error and leaves names, variables and counter (R239, log 13). -/
theorem LineEnds.eq_of_errors_ne {s u : Session} {source : Text} (h : LineEnds s source u)
    (herr : u.errors ≠ s.errors) :
    u.errors = s.errors + 1 ∧ u.symbols = s.symbols ∧ u.varOrder = s.varOrder ∧ u.varValues = s.varValues ∧
      u.instructionCounter = s.instructionCounter := by
  cases h with
  | rejected => exact ⟨rfl, rfl, rfl, rfl, rfl⟩
  | dropped | subroutine | dataVariable | definition | instruction => exact absurd rfl herr

/-- With an error counted, emission fails with the count (R237). -/
theorem emitImage_of_pos {errors : Nat} (h : 0 < errors) (program : List Resolved) (data : List Byte) :
    emitImage errors program data = .failed errors := by
  rw [emitImage, if_neg h.ne']

/-- Emission of a program fails with the errors counted, or with the one error of its size (R237). -/
theorem one_le_of_emitImage_eq_failed {errors n : Nat} {program : List Instr} {data : List Byte}
    (h : emitImage errors (program.map .ofInstr) data = .failed n) : 1 ≤ n := by
  rw [emitImage_map_ofInstr] at h
  split at h
  next =>
    split at h
    next => cases h
    next => cases h; exact Nat.le_refl 1
  next hne => cases h; exact Nat.one_le_iff_ne_zero.mpr hne

/-! ### Comments -/

/-- A line with a comment appended has the text of the line before it (R222). -/
theorem stripComment_append_comment (line comment : Text) :
    stripComment (line ++ ';' :: comment) = stripComment line := by
  induction line with
  | nil => rfl
  | cons c cs ih =>
    simp only [stripComment, List.cons_append, List.takeWhile_cons] at ih ⊢
    rw [ih]

/-- A record without the text of its line. -/
def Record.withoutSource (r : Record) : Record := { r with source := [] }

/-- A session without the text of its lines. -/
def Session.withoutSources (s : Session) : Session := { s with records := s.records.map Record.withoutSource }

@[simp] theorem withoutSource_comp_withoutSource :
    Record.withoutSource ∘ Record.withoutSource = Record.withoutSource := rfl

section
variable (s : Session) (source : Text) (toks : List Text)

@[simp] theorem withoutSources_symbols : s.withoutSources.symbols = s.symbols := rfl

@[simp] theorem withoutSources_errors : s.withoutSources.errors = s.errors := rfl

theorem withoutSources_declare (kind : LineKind) (entry : Symbol) :
    (s.declare source toks kind entry).withoutSources =
      (s.withoutSources.declare [] toks kind entry).withoutSources := by
  simp [Session.withoutSources, Session.declare, Record.withoutSource]

theorem withoutSources_dropLine :
    (s.dropLine source toks).withoutSources = (s.withoutSources.dropLine [] toks).withoutSources := by
  simp [Session.withoutSources, Session.dropLine, Record.withoutSource]

theorem withoutSources_declareSubroutine :
    (declareSubroutine s source toks).map Session.withoutSources =
      (declareSubroutine s.withoutSources [] toks).map Session.withoutSources := by
  unfold declareSubroutine
  split
  next t =>
    rw [withoutSources_symbols]
    cases checkName s.symbols t.dropLast with
    | ok name => exact congrArg Except.ok (withoutSources_declare s source _ _ _)
    | error => rfl
  next => rfl

theorem withoutSources_declareVariable :
    (declareVariable s source toks).map Session.withoutSources =
      (declareVariable s.withoutSources [] toks).map Session.withoutSources := by
  unfold declareVariable
  split
  next t v =>
    rw [withoutSources_symbols]
    cases checkName s.symbols (t.drop 1) with
    | ok name =>
      cases numericLiteral v with
      | some n =>
        dsimp only
        split
        · simp [Except.map, Session.withoutSources, Session.declare, Record.withoutSource]
        · rfl
      | none => rfl
    | error => rfl
  next => rfl

theorem withoutSources_declareDefinition :
    (declareDefinition s source toks).map Session.withoutSources =
      (declareDefinition s.withoutSources [] toks).map Session.withoutSources := by
  unfold declareDefinition
  split
  next t v =>
    rw [withoutSources_symbols]
    cases checkName s.symbols (t.drop 1) with
    | ok name =>
      cases numericLiteral v with
      | some n =>
        dsimp only
        split
        · exact congrArg Except.ok (withoutSources_declare s source _ _ _)
        · rfl
      | none => rfl
    | error => rfl
  next => rfl

theorem withoutSources_recordInstruction :
    (recordInstruction s source toks).map Session.withoutSources =
      (recordInstruction s.withoutSources [] toks).map Session.withoutSources := by
  unfold recordInstruction
  split
  next => rfl
  next t _ =>
    cases opcodeOfMnemonic t with
    | some op => simp [Except.map, Session.withoutSources, Record.withoutSource]
    | none => rfl

end

/-- What a line of each kind makes of the session, before an error is counted (R224). -/
def declareLine (s : Session) (source : Text) (toks : List Text) : LineKind → Except SyntaxError Session
  | .invalid => .ok (s.dropLine source toks)
  | .subroutine => declareSubroutine s source toks
  | .dataVariable => declareVariable s source toks
  | .definition => declareDefinition s source toks
  | .instruction => recordInstruction s source toks

theorem classifyLine_eq (s : Session) (line : Text) :
    classifyLine s line =
      match declareLine s line (tokens (trim (stripComment line))) (classify (trim (stripComment line))) with
      | .ok t => t
      | .error _ => { s.dropLine line (tokens (trim (stripComment line))) with errors := s.errors + 1 } := rfl

theorem withoutSources_declareLine (s : Session) (source : Text) (toks : List Text) (kind : LineKind) :
    (declareLine s source toks kind).map Session.withoutSources =
      (declareLine s.withoutSources [] toks kind).map Session.withoutSources := by
  cases kind with
  | invalid => exact congrArg Except.ok (withoutSources_dropLine s source toks)
  | subroutine => exact withoutSources_declareSubroutine s source toks
  | dataVariable => exact withoutSources_declareVariable s source toks
  | definition => exact withoutSources_declareDefinition s source toks
  | instruction => exact withoutSources_recordInstruction s source toks

/-- Pass 1 does not look at the text of earlier lines, nor at a line's comment (R222). -/
theorem withoutSources_classifyLine {s u : Session} {line other : Text} (hs : s.withoutSources = u.withoutSources)
    (hline : stripComment line = stripComment other) :
    (classifyLine s line).withoutSources = (classifyLine u other).withoutSources := by
  rw [classifyLine_eq, classifyLine_eq, hline]
  generalize trim (stripComment other) = body
  have hdeclare : (declareLine s line (tokens body) (classify body)).map Session.withoutSources =
      (declareLine u other (tokens body) (classify body)).map Session.withoutSources := by
    rw [withoutSources_declareLine, hs, ← withoutSources_declareLine]
  have hdrop : (s.dropLine line (tokens body)).withoutSources = (u.dropLine other (tokens body)).withoutSources := by
    rw [withoutSources_dropLine, hs, ← withoutSources_dropLine]
  have herrors : s.errors = u.errors := by
    rw [← withoutSources_errors s, hs, withoutSources_errors]
  generalize declareLine s line (tokens body) (classify body) = outcome at hdeclare ⊢
  generalize declareLine u other (tokens body) (classify body) = outcome' at hdeclare ⊢
  cases outcome with
  | ok =>
    cases outcome' with
    | ok => exact Except.ok.inj hdeclare
    | error => cases hdeclare
  | error =>
    cases outcome' with
    | ok => cases hdeclare
    | error => exact congrArg₂ (fun d n => { d with errors := n + 1 }) hdrop herrors

/-- The result of a session that pass 1 has ended (R232 to R237). -/
def Session.result (s : Session) : AsmResult :=
  let outcomes := s.records.filterMap (resolveRecord s.resolvedSymbols)
  emitImage (s.errors + countErrors outcomes) (resolvedInstructions outcomes) s.dataSegment

theorem assemble_eq_result (cfg : AsmConfig) (lines : List Text) : assemble cfg lines = (passOne cfg lines).result :=
  rfl

theorem result_withoutSources (s : Session) : s.withoutSources.result = s.result := by
  have hrecords : s.withoutSources.records.filterMap (resolveRecord s.resolvedSymbols) =
      s.records.filterMap (resolveRecord s.resolvedSymbols) := by
    rw [Session.withoutSources, List.filterMap_map]
    rfl
  exact congrArg (fun outcomes => emitImage (s.errors + countErrors outcomes) (resolvedInstructions outcomes)
    s.dataSegment) hrecords

/-- Lines that are the same but for their comments are the same to pass 1. -/
theorem withoutSources_passOne (cfg : AsmConfig) {lines others : List Text}
    (h : List.Forall₂ (fun l o => stripComment l = stripComment o) lines others) :
    (passOne cfg lines).withoutSources = (passOne cfg others).withoutSources := by
  unfold passOne
  have hfold : ∀ s u : Session, s.withoutSources = u.withoutSources →
      (lines.foldl classifyLine s).withoutSources = (others.foldl classifyLine u).withoutSources := by
    induction h with
    | nil => exact fun _ _ hs => hs
    | cons hline _ ih => exact fun _ _ hs => ih _ _ (withoutSources_classifyLine hs hline)
  exact hfold _ _ rfl

/-! ### The statements -/

/-- Settles O54: a program's emission fails with a count, and an error of pass 1 is part of the count. -/
theorem assemblerFailsClosed : Obligations.AssemblerFailsClosed := by
  intro cfg lines
  constructor
  · intro n h
    obtain ⟨program, hprogram⟩ := exists_program cfg lines
    rw [assemble_eq, hprogram] at h
    exact one_le_of_emitImage_eq_failed h
  · intro herrors
    exact ⟨_, emitImage_of_pos (Nat.add_pos_left herrors _) _ _⟩

/-- Settles O55: every line keeps the table's names pairwise different and its beginning. -/
theorem namesAreNeverRedefined : Obligations.NamesAreNeverRedefined := by
  intro cfg lines
  have hnamed := passOne_named cfg lines
  exact ⟨hnamed.distinct, hnamed.seeded⟩

/-- Settles O56: names are pairwise different, so a variable's name finds its own entry and its own position. -/
theorem variableAddresses : Obligations.VariableAddresses :=
  fun cfg lines _ _ h => (passOne_named cfg lines).findSymbol_variable h

/-- Settles O57: the shorthand and its full form have the same expanded values. -/
theorem shorthandsResolveAsTheirFullForms : Obligations.ShorthandsResolveAsTheirFullForms := by
  refine ⟨fun symbols r m a c hop htoks => ?_, fun symbols r m b hop htoks => ?_,
    fun _ _ hrsh hpas => expandShorthand_of_not_shorthand hrsh hpas⟩
  · exact resolveRecord_eq_of_expanded symbols hop (htoks ▸ expanded_operandValues_rsh symbols a c)
  · exact resolveRecord_eq_of_expanded symbols hop (htoks ▸ expanded_operandValues_pas symbols b)

/-- Settles O58: of the ways a line can end, only the rejected line counts an error. -/
theorem invalidLineChangesNothingElse : Obligations.InvalidLineChangesNothingElse :=
  fun s line h => (classifyLine_ends s line).eq_of_errors_ne h

/-- Settles O59: the changed line has the same text before its comment, and the result depends on no more. -/
theorem commentsDoNotMatter : Obligations.CommentsDoNotMatter := by
  intro cfg before after line comment
  have hlines : List.Forall₂ (fun l o => stripComment l = stripComment o)
      (before ++ (line ++ ';' :: comment) :: after) (before ++ line :: after) :=
    List.rel_append (List.forall₂_refl before)
      (.cons (stripComment_append_comment line comment) (List.forall₂_refl after))
  rw [assemble_eq_result, assemble_eq_result, ← result_withoutSources, withoutSources_passOne cfg hlines,
    result_withoutSources]

end Sys2Proof.Asm
end

section
/-!
PROOFS. Faults and the wait for input (60_exceptions R270, R271, R279). `CycleRaises` says which fault a cycle
raises, by what was fetched; `faulted_iff_cycleRaises` ties it to `step`, and each reason's case of R270 is read off
from it.
-/

namespace Sys2Proof.Machine

/-! ### Words that are no instruction -/

/-- An opcode above 26 is what makes a word illegal, whatever its reserved bits (R83, R272). -/
theorem decode_illegal_iff (policy : ReservedBitsPolicy) (w : Word) :
    (∃ op, decode policy w = .illegal op) ↔ 26 < (opcodeField w).toNat := by
  constructor
  · rintro ⟨op, hd⟩
    by_contra hle
    obtain ⟨hlt, -⟩ | ⟨fmt, -, -, hlegal⟩ := decodeClassifiesEveryWord policy w
    · exact hle hlt
    · split at hlegal
      · cases hd.symm.trans hlegal
      · obtain ⟨i, hi, -⟩ := hlegal
        cases hd.symm.trans hi
  · intro hop
    exact ⟨_, decode_of_formatOf_none ((formatOf_eq_none_iff _).mpr hop) policy⟩

/-- A word is refused for its reserved bits exactly when the policy is fault and one of its format's is 1 (R84). -/
theorem decode_reserved_iff (policy : ReservedBitsPolicy) (w : Word) :
    (∃ op f, decode policy w = .reserved op f) ↔ policy = .fault ∧
      ∃ fmt, formatOf (opcodeField w) = some fmt ∧ operandField w &&& reservedMask fmt ≠ 0#11 := by
  constructor
  · rintro ⟨op, f, hd⟩
    obtain ⟨-, hi⟩ | ⟨fmt, -, hfmt, hlegal⟩ := decodeClassifiesEveryWord policy w
    · cases hd.symm.trans hi
    · split at hlegal
      · next hbits => exact ⟨hbits.1, fmt, hfmt, hbits.2⟩
      · obtain ⟨i, hi, -⟩ := hlegal
        cases hd.symm.trans hi
  · rintro ⟨rfl, fmt, hfmt, hbits⟩
    exact ⟨_, _, decode_of_reserved hfmt hbits⟩

/-! ### Operands out of range -/

/-- R52's DataAddr faults above the page, or above memory where it may spill. -/
theorem dataAddr_eq_none_iff (policy : OffsetOverflow) (page : Page) (offset : Nat) :
    dataAddr policy page offset = none ↔
      255 < offset ∧ (policy = .fault ∨ policy = .spill ∧ 2047 < linearAddr page offset) := by
  rcases dataAddr_cases policy page offset with
    ⟨hle, ha⟩ | ⟨hgt, rfl, ha⟩ | ⟨hgt, rfl, hend, ha⟩ | ⟨hgt, rfl, hend, ha⟩ | ⟨hgt, rfl, ha⟩
  · simp [ha, hle]
  · simp [ha, hgt]
  · simp [ha, hgt, hend]
  · simp [ha, hend]
  · simp [ha]

/-- PAS faults on a value above 7 under the policy fault (R182). -/
theorem pageOf_eq_none_iff (policy : PageOverflow) (v : Byte) :
    pageOf policy v = none ↔ policy = .fault ∧ 7 < v.toNat := by
  have hnum : v ≤ 7#8 ↔ ¬ 7 < v.toNat := Nat.not_lt.symm
  rcases pageOf_cases policy v with ⟨hle, hp⟩ | ⟨hgt, rfl, hp⟩ | ⟨hgt, rfl, hp⟩
  · simp [hp, hnum.mp hle]
  · simp [hp, not_not.mp (hnum.not.mp hgt)]
  · simp [hp]

/-! ### Instructions that fault -/

section
variable {s t : State} {i : Instr} {reason : FaultReason}

theorem ExecRaises.exec_eq (h : ExecRaises s i reason) : exec i s = .next (s.raiseFault reason) := by
  cases h with
  | rea a imm3 c ha => exact exec_rea_of_effectiveAddr_none ha c
  | sto a imm3 c ha => exact exec_sto_of_effectiveAddr_none ha c
  | pas imm3 reg hp => exact exec_pas_of_pageOf_none hp

/-- An instruction run by a core that is not Faulted leaves it Faulted only by raising that fault. -/
theorem ExecEnds.faulted_cases (h : ExecEnds s i t) (hr : t.run = .faulted reason) :
    s.run = .faulted reason ∨ ExecRaises s i reason := by
  cases h with
  | movedOn u hw =>
    obtain ⟨-, hrun, -⟩ := hw.frame
    rw [State.advance_run] at hr
    split at hr
    · cases hr
    · exact .inl (hrun ▸ hr)
  | wentTo u target hw =>
    obtain ⟨-, hrun, -⟩ := hw.frame
    exact .inl (hrun ▸ hr)
  | faulted raised hraises =>
    cases hr
    exact .inr hraises
  | halted => cases hr
  | waited => exact .inl hr

end

/-! ### The fault of a cycle -/

/-- The fault a cycle from `s` raises, if it raises one: at decode, or by the instruction (R270). -/
inductive CycleRaises (s : State) : FaultReason → Prop
  | illegal (op : BitVec 5) (hf : s.fetched = .illegal op) : CycleRaises s .illegalOpcode
  | reserved (op : BitVec 5) (f : BitVec 11) (hf : s.fetched = .reserved op f) : CycleRaises s .reservedBits
  | executed (i : Instr) (reason : FaultReason) (hf : s.fetched = .instr i) (hr : ExecRaises s.latch i reason) :
      CycleRaises s reason

section
variable {s t : State} {reason : FaultReason}

/-- A raised fault is taken after the fetch, and nothing else happens in the cycle (R271). -/
theorem CycleRaises.step_eq (h : CycleRaises s reason) (hs : s.Cycles) :
    step s = .next (s.latch.raiseFault reason) := by
  rw [step_of_cycles hs]
  cases h with
  | illegal op hf => rw [hf]; rfl
  | reserved op f hf => rw [hf]; rfl
  | executed i _ hf hr => rw [hf]; exact hr.exec_eq

theorem cycleRaises_of_faulted (h : step s = .next t) (hr : t.run = .faulted reason) : CycleRaises s reason := by
  have hs : s.Cycles := cycles_of_step h
  rw [step_of_cycles hs] at h
  rcases runDecoded_cases s.fetched s.latch with ⟨i, hf, hd⟩ | ⟨op, hf, hd⟩ | ⟨op, f, hf, hd⟩
  · rcases (ends_of_exec (hd.symm.trans h)).faulted_cases hr with hbefore | hraises
    · cases hs.1.symm.trans hbefore
    · exact .executed i reason hf hraises
  · cases hd.symm.trans h
    cases hr
    exact .illegal op hf
  · cases hd.symm.trans h
    cases hr
    exact .reserved op f hf

/-- The one state a cycle can end Faulted in. -/
theorem eq_raiseFault_of_faulted (h : step s = .next t) (hr : t.run = .faulted reason) :
    t = s.latch.raiseFault reason := by
  cases h.symm.trans ((cycleRaises_of_faulted h hr).step_eq (cycles_of_step h))
  rfl

theorem faulted_iff_cycleRaises (h : step s = .next t) (reason : FaultReason) :
    t.run = .faulted reason ↔ CycleRaises s reason := by
  refine ⟨cycleRaises_of_faulted h, fun hraises => ?_⟩
  cases h.symm.trans (hraises.step_eq (cycles_of_step h))
  rfl

end

/-! ### The case of each reason (R270) -/

theorem cycleRaises_illegalOpcode_iff (s : State) :
    CycleRaises s .illegalOpcode ↔ 26 < (opcodeField (s.mem.fetch16 s.pc)).toNat := by
  rw [← decode_illegal_iff s.cfg.reservedBits]
  constructor
  · intro h
    cases h with
    | illegal op hf => exact ⟨op, hf⟩
    | executed _ _ _ hr => cases hr
  · rintro ⟨op, hf⟩
    exact .illegal op hf

theorem cycleRaises_reservedBits_iff (s : State) :
    CycleRaises s .reservedBits ↔ s.cfg.reservedBits = .fault ∧
      ∃ fmt, formatOf (opcodeField (s.mem.fetch16 s.pc)) = some fmt ∧
        operandField (s.mem.fetch16 s.pc) &&& reservedMask fmt ≠ 0#11 := by
  rw [← decode_reserved_iff]
  constructor
  · intro h
    cases h with
    | reserved op f hf => exact ⟨op, f, hf⟩
    | executed _ _ _ hr => cases hr
  · rintro ⟨op, f, hf⟩
    exact .reserved op f hf

theorem cycleRaises_dataAddressOutOfRange_iff (s : State) :
    CycleRaises s .dataAddressOutOfRange ↔ ∃ a imm3 c,
      (s.fetched = .instr (.rea a imm3 c) ∨ s.fetched = .instr (.sto a imm3 c)) ∧
      s.effectiveAddr a imm3 = none := by
  constructor
  · intro h
    cases h with
    | executed _ _ hf hr =>
      cases hr with
      | rea a imm3 c ha => exact ⟨a, imm3, c, .inl hf, ha⟩
      | sto a imm3 c ha => exact ⟨a, imm3, c, .inr hf, ha⟩
  · rintro ⟨a, imm3, c, hf | hf, ha⟩
    · exact .executed _ _ hf (.rea a imm3 c ha)
    · exact .executed _ _ hf (.sto a imm3 c ha)

theorem cycleRaises_pageOutOfRange_iff (s : State) :
    CycleRaises s .pageOutOfRange ↔ ∃ imm3 reg, s.fetched = .instr (.pas imm3 reg) ∧
      pageOf s.cfg.pageOverflow (s.pageValue imm3 reg) = none := by
  constructor
  · intro h
    cases h with
    | executed _ _ hf hr =>
      cases hr with
      | pas imm3 reg hp => exact ⟨imm3, reg, hf, hp⟩
  · rintro ⟨imm3, reg, hf, hp⟩
    exact .executed _ _ hf (.pas imm3 reg hp)

/-! ### The wait for input -/

/-- The cycle of a GPI without an answer is its fetch alone (R279, log 6). -/
theorem step_of_unanswered_gpi {s : State} {reg : Reg} {imm3 : BitVec 3} (hs : s.Cycles)
    (hf : s.fetched = .instr (.gpi reg imm3)) (hn : s.host.answer imm3 s.trace = none) :
    step s = .next s.latch := by
  rw [step_of_fetched_instr hs hf]
  exact exec_gpi_of_answer_none (s := s.latch) hn reg

/-- A state that steps to itself is never left. -/
theorem runCycles_of_step_self {s : State} (h : step s = .next s) (k : Nat) : runCycles k s = s := by
  induction k with
  | zero => rfl
  | succ k ih => rw [runCycles_succ_of_next k s s h, ih]

/-! ### The statements -/

/-- Settles O18: a Faulted next state is the fetch's state with the fault taken, and a Faulted core has no cycle. -/
theorem faultsArePrecise : Obligations.FaultsArePrecise := by
  intro s t reason _ h hr
  refine ⟨?_, fun u hu => ?_⟩
  · rw [eq_raiseFault_of_faulted h hr]
    exact tookFault_raiseFault s.latch reason
  · cases (step_of_faulted hr).symm.trans hu

/-- Settles O19: the reasons of `CycleRaises`, one by one, with the operand checks as numbers. -/
theorem faultsInExactlyTheseCases : Obligations.FaultsInExactlyTheseCases := by
  refine ⟨⟨rfl, rfl, rfl, rfl⟩, fun s t _ h => ?_⟩
  simp only [faulted_iff_cycleRaises h]
  refine ⟨cycleRaises_illegalOpcode_iff s, cycleRaises_reservedBits_iff s, ?_, ?_, fun reason hraises => ?_⟩
  · simp only [cycleRaises_dataAddressOutOfRange_iff, State.effectiveAddr, dataAddr_eq_none_iff, linearAddr,
      State.dataOffset]
  · simp only [cycleRaises_pageOutOfRange_iff, pageOf_eq_none_iff, State.pageValue_toNat]
  · rw [eq_raiseFault_of_faulted h ((faulted_iff_cycleRaises h reason).mpr hraises)]
    exact ⟨rfl, rfl⟩

/-- Settles O48: the first cycle latches the GPI; IR is never read, so every later cycle leads back to that state. -/
theorem unansweredInputIsStuck : Obligations.UnansweredInputIsStuck := by
  intro s reg imm3 k hs hf hn
  obtain ⟨hir, -⟩ := instructionRegisterIsNeverRead
  have hfirst : step s = .next s.latch := step_of_unanswered_gpi hs hf hn
  have hagain : step s.latch = .next s.latch := (hir s _).trans hfirst
  rw [runCycles_succ_of_next k s _ hfirst]
  exact runCycles_of_step_self hagain k

end Sys2Proof.Machine
end
